-- ==== Sys2Proof/Word.lean ====
section
/-! DEFINITION. The word types of the core: bytes, 16-bit words and 12-bit addresses, all unsigned (00_scope.md R8, R9). -/

namespace Sys2Proof

/-- A byte of Memory, a general register's contents, a timer (20_memory.md R50, 10_state.md R20, R38). -/
abbrev Byte := BitVec 8

/-- An instruction word, and the width of `pc`, `I` and a stack entry (00_scope.md R7). -/
abbrev Word := BitVec 16

/-- A 12-bit address field `nnn` (30_encoding.md R72). -/
abbrev Addr := BitVec 12

/-- The number of a general register, 0x0 to 0xF (10_state.md R20). -/
abbrev RegNum := Fin 16

/-- A sprite height `n`, a row count 0 to 15 (30_encoding.md R72). -/
abbrev RowCount := Fin 16

end Sys2Proof
end

