-- ==== Sys2Proof/Syntax.lean ====
section
/-! DEFINITION. The instructions: the closed set of nine variants of 30_encoding.md R77, with the operands of R72. -/

namespace Sys2Proof

/-- The decoded instruction. Every row of spec/opcode_table.json is one of these constructors; its ten UNKNOWN rows
are the one variant UnknownInstruction (30_encoding.md R77, R78). -/
inductive Instr where
  /-- CLS, the word 0x00E0 (43_display.md R120). -/
  | clearScreen
  /-- RET, the word 0x00EE (41_control_flow.md R102). -/
  | stopSubroutine
  /-- JP nnn (41_control_flow.md R100). -/
  | jump (nnn : Addr)
  /-- CALL nnn (41_control_flow.md R101). -/
  | callSubroutine (nnn : Addr)
  /-- LD Vx, kk (42_register.md R110). -/
  | setRegister (x : RegNum) (kk : Byte)
  /-- ADD Vx, kk (42_register.md R111). -/
  | addToRegister (x : RegNum) (kk : Byte)
  /-- LD I, nnn (42_register.md R112). -/
  | setIndex (nnn : Addr)
  /-- DRW Vx, Vy, n (43_display.md R121). -/
  | display (x y : RegNum) (n : RowCount)
  /-- Every other word, kept whole (30_encoding.md R78, 40_cycle.md R93). -/
  | unknownInstruction (raw : Word)
deriving DecidableEq, Repr

end Sys2Proof
end

