-- ==== Sys2Proof/WellFormed.lean ====
section
/-! DEFINITION. Which instruction terms are well formed: those an instruction word stands for (30_encoding.md R78 to R80). -/

namespace Sys2Proof

/-- The UnknownInstruction space of 30_encoding.md R78, range by range: 0x0000-0x0FFF except 0x00E0 and 0x00EE;
0x3000-0x5FFF; 0x8000-0x9FFF; 0xB000-0xCFFF; 0xE000-0xFFFF. -/
def inUnknownSpace (w : Word) : Bool :=
  let n := w.toNat
  (n ≤ 0x0FFF && n != 0x00E0 && n != 0x00EE)
    || (0x3000 ≤ n && n ≤ 0x5FFF)
    || (0x8000 ≤ n && n ≤ 0x9FFF)
    || (0xB000 ≤ n && n ≤ 0xCFFF)
    || (0xE000 ≤ n)

/-- An instruction term is well formed when some word decodes to it. Every field value of a decoded format is legal
(30_encoding.md R79), so the only check is that an UnknownInstruction's raw word lies in the unknown space (R78). -/
def Instr.wellFormed : Instr → Bool
  | .clearScreen => true
  | .stopSubroutine => true
  | .jump _ => true
  | .callSubroutine _ => true
  | .setRegister _ _ => true
  | .addToRegister _ _ => true
  | .setIndex _ => true
  | .display _ _ _ => true
  | .unknownInstruction raw => inUnknownSpace raw

end Sys2Proof
end

