-- ==== Sys2Proof/Decode.lean ====
section
/-! DEFINITION. The decoder (30_encoding.md R70 to R79), the encoder (R80), and the opcode table's rows (R75). -/

namespace Sys2Proof

/-! ## Fields of a word (R12, R71, R72) -/

/-- The top nibble w[15:12], which selects the family. -/
def opNibble (w : Word) : BitVec 4 := w.extractLsb' 12 4

/-- x = w[11:8]. -/
def fieldX (w : Word) : RegNum := (w.extractLsb' 8 4).toFin

/-- y = w[7:4]. -/
def fieldY (w : Word) : RegNum := (w.extractLsb' 4 4).toFin

/-- n = w[3:0]. -/
def fieldN (w : Word) : RowCount := (w.extractLsb' 0 4).toFin

/-- kk = w[7:0]. -/
def fieldKk (w : Word) : Byte := w.extractLsb' 0 8

/-- nnn = w[11:0]. -/
def fieldNnn (w : Word) : Addr := w.extractLsb' 0 12

/-! ## Decoding -/

/-- The decode function of R73: total, and a function of the word alone (R76). -/
def decode (w : Word) : Instr :=
  if w = 0x00E0 then .clearScreen
  else if w = 0x00EE then .stopSubroutine
  else
    match (opNibble w).toNat with
    | 0x1 => .jump (fieldNnn w)
    | 0x2 => .callSubroutine (fieldNnn w)
    | 0x6 => .setRegister (fieldX w) (fieldKk w)
    | 0x7 => .addToRegister (fieldX w) (fieldKk w)
    | 0xA => .setIndex (fieldNnn w)
    | 0xD => .display (fieldX w) (fieldY w) (fieldN w)
    | _ => .unknownInstruction w

/-- The word of two bytes, the first byte high (20_memory.md R56). -/
def wordOfBytes (hi lo : Byte) : Word := hi ++ lo

/-- The high byte of a word, which lies at the lower address (30_encoding.md R70). -/
def highByte (w : Word) : Byte := w.extractLsb' 8 8

/-- The low byte of a word. -/
def lowByte (w : Word) : Byte := w.extractLsb' 0 8

/-- Why a byte sequence holds no instruction. -/
inductive DecodeReject where
  /-- Fewer than the two bytes every instruction takes (R70). No word is ever rejected (R76). -/
  | tooFewBytes
deriving DecidableEq, Repr

/-- Decoding a byte sequence: exactly two bytes are consumed (R70), and the rest is handed back. -/
def decodeBytes : List Byte → Except DecodeReject (Instr × List Byte)
  | hi :: lo :: rest => .ok (decode (wordOfBytes hi lo), rest)
  | _ => .error .tooFewBytes

/-- The word whose bits are `w`, the bits above `nbits` zero, numbered as the opcode table numbers them. -/
def tableWord (nbits w : Nat) : Word := BitVec.ofNat 16 (w % 2 ^ nbits)

/-- The instruction the decoder reads from the word `tableWord nbits w` laid out in Memory's byte order. -/
def decodeTableWord (nbits w : Nat) : Option Instr :=
  match decodeBytes [highByte (tableWord nbits w), lowByte (tableWord nbits w)] with
  | .ok (i, _) => some i
  | .error _ => none

/-! ## Encoding (R80) -/

/-- A register number or row count as bits of a word. -/
def nibbleBits (k : Fin 16) : Word := BitVec.ofNat 16 k.val

/-- An instruction's word, by the equations of R80. -/
def encode : Instr → Word
  | .clearScreen => 0x00E0
  | .stopSubroutine => 0x00EE
  | .jump a => 0x1000 ||| a.setWidth 16
  | .callSubroutine a => 0x2000 ||| a.setWidth 16
  | .setRegister x k => 0x6000 ||| nibbleBits x <<< 8 ||| k.setWidth 16
  | .addToRegister x k => 0x7000 ||| nibbleBits x <<< 8 ||| k.setWidth 16
  | .setIndex a => 0xA000 ||| a.setWidth 16
  | .display x y n => 0xD000 ||| nibbleBits x <<< 8 ||| nibbleBits y <<< 4 ||| nibbleBits n
  | .unknownInstruction w => w

/-- An instruction's two bytes in Memory order, high byte first (R70). -/
def encodeBytes (i : Instr) : List Byte := [highByte (encode i), lowByte (encode i)]

/-! ## The opcode table (R75) -/

/-- The nine variants by name, without operands (R77). -/
inductive Variant where
  | clearScreen | stopSubroutine | jump | callSubroutine | setRegister | addToRegister | setIndex | display
  | unknownInstruction
deriving DecidableEq, Repr

/-- The variant of an instruction. -/
def Instr.variant : Instr → Variant
  | .clearScreen => .clearScreen
  | .stopSubroutine => .stopSubroutine
  | .jump _ => .jump
  | .callSubroutine _ => .callSubroutine
  | .setRegister _ _ => .setRegister
  | .addToRegister _ _ => .addToRegister
  | .setIndex _ => .setIndex
  | .display _ _ _ => .display
  | .unknownInstruction _ => .unknownInstruction

/-- One row of the instruction list of R75. -/
structure OpcodeRow where
  variant : Variant
  pattern : Word
  mask : Word
deriving DecidableEq, Repr

/-- A word selects a row when `w & mask == match` (R75). -/
def OpcodeRow.selects (r : OpcodeRow) (w : Word) : Bool := w &&& r.mask == r.pattern

/-- The eight rows of R75, in its order. Every word that no row selects is UnknownInstruction. -/
def opcodeRows : List OpcodeRow :=
  [ ⟨.clearScreen, 0x00E0, 0xFFFF⟩, ⟨.stopSubroutine, 0x00EE, 0xFFFF⟩,
    ⟨.jump, 0x1000, 0xF000⟩, ⟨.callSubroutine, 0x2000, 0xF000⟩,
    ⟨.setRegister, 0x6000, 0xF000⟩, ⟨.addToRegister, 0x7000, 0xF000⟩,
    ⟨.setIndex, 0xA000, 0xF000⟩, ⟨.display, 0xD000, 0xF000⟩ ]

end Sys2Proof
end

