-- ==== Sys2Proof/Config.lean ====
section
/-! DEFINITION. The implementation parameters of 00_scope.md R7: the sizes the source states, as constants, and
the ones the spec decides (92_eei_decisions.md), as the fields of `Config`. The value of each field stands in
Machine/Parameters.lean. -/

namespace Sys2Proof

/-- MEM_SIZE (00_scope.md R7, 20_memory.md R50). -/
abbrev memSize : Nat := 4096

/-- PROG_BASE, the first address of the program area (20_memory.md R52). -/
abbrev progBase : Nat := 0x200

/-- PROG_MAX, the size of the program area (00_scope.md R7). -/
abbrev progMax : Nat := 3584

/-- FONT_BASE, where glyph 0 starts (20_memory.md R51). -/
abbrev fontBase : Nat := 0x050

/-- FONT_SIZE: 16 glyphs of 5 bytes (20_memory.md R51). -/
abbrev fontSize : Nat := 80

/-- UNKNOWN_POLICY, what executing an UnknownInstruction does (D1; 93_implementation_defined.md K1). The source's
"silent no-op" and "logged skip" write the same state, since the block holds no log: both are `skip`. -/
inductive UnknownPolicy where
  /-- UnsupportedOpcode is raised and is fatal: the spec's choice (40_cycle.md R93). -/
  | hardFail
  /-- The word has no effect beyond the fetch's advance of pc. -/
  | skip
deriving DecidableEq, Repr

/-- What a load does to the program area and the registers before it copies (D5; K3). -/
inductive ReloadPolicy where
  /-- Nothing: only the program's own bytes are written. The spec's choice (70_reset_and_hazards.md R175). -/
  | keep
  /-- "re-zero the program region and registers before copying new bytes" (R175, the source's open alternative). -/
  | rezero
deriving DecidableEq, Repr

/-- Where the second byte of a fetch at pc = 0xFFF comes from (D3; K9). -/
inductive FetchWrap where
  /-- From address 0x000: the spec's choice (20_memory.md R57). -/
  | wrap
  /-- From nowhere: the model stops there, the cautious reading K9 allows. -/
  | stop
deriving DecidableEq, Repr

/-- The parameters that 92_eei_decisions.md decides and a corrected value may replace (00_scope.md R7, K1, K3, K4, K9, K10, K11). -/
structure Config where
  /-- STACK_CAPACITY, in entries (D4). -/
  stackCapacity : Nat
  /-- FONT: glyph g is row g, five bytes from its top row down (D7). -/
  font : Vector (Vector Byte 5) 16
  /-- RESET_PC (D15). -/
  resetPc : Word
  /-- UNKNOWN_POLICY (D1). -/
  unknownPolicy : UnknownPolicy
  /-- The reload policy (D5). -/
  reloadPolicy : ReloadPolicy
  /-- The fetch's wrap at the top of Memory (D3). -/
  fetchWrap : FetchWrap
deriving DecidableEq, Repr

end Sys2Proof
end

