-- ==== Sys2Proof/Machine/Parameters.lean ====
section
/-! DEFINITION. The values of the parameters that the spec decides (00_scope.md R7; 92_eei_decisions.md D1, D3, D4, D5, D7, D15). -/

namespace Sys2Proof.Machine

/-- FONT, the table of D7: one row a glyph, 0 to F. -/
def specFont : Vector (Vector Byte 5) 16 :=
  #v[ #v[0xF0, 0x90, 0x90, 0x90, 0xF0], #v[0x20, 0x60, 0x20, 0x20, 0x70],
      #v[0xF0, 0x10, 0xF0, 0x80, 0xF0], #v[0xF0, 0x10, 0xF0, 0x10, 0xF0],
      #v[0x90, 0x90, 0xF0, 0x10, 0x10], #v[0xF0, 0x80, 0xF0, 0x10, 0xF0],
      #v[0xF0, 0x80, 0xF0, 0x90, 0xF0], #v[0xF0, 0x10, 0x20, 0x40, 0x40],
      #v[0xF0, 0x90, 0xF0, 0x90, 0xF0], #v[0xF0, 0x90, 0xF0, 0x10, 0xF0],
      #v[0xF0, 0x90, 0xF0, 0x90, 0x90], #v[0xE0, 0x90, 0xE0, 0x90, 0xE0],
      #v[0xF0, 0x80, 0x80, 0x80, 0xF0], #v[0xE0, 0x90, 0x90, 0x90, 0xE0],
      #v[0xF0, 0x80, 0xF0, 0x80, 0xF0], #v[0xF0, 0x80, 0xF0, 0x80, 0x80] ]

/-- The parameters of this core. -/
def config : Config where
  stackCapacity := 256
  font := specFont
  resetPc := 0x000
  unknownPolicy := .hardFail
  reloadPolicy := .keep
  fetchWrap := .wrap

end Sys2Proof.Machine
end

