-- ==== Sys2Proof/Machine/Memory.lean ====
section
/-! DEFINITION. Memory, the one address space of 4096 bytes (20_memory.md R50): what it holds at reset (R51), its canonical
form, and reading and writing one byte of it. -/

namespace Sys2Proof.Machine

/-- The bytes that differ from the reset contents, by address. -/
abbrev Memory := List Host.Cell

/-- What an unlisted address reads as: the reset contents of R51, glyph g at [0x050 + 5g, 0x050 + 5g + 5) and zero elsewhere. -/
def resetByte (a : Nat) : Byte :=
  if h : fontBase ≤ a ∧ a < fontBase + fontSize then
    (config.font[(a - fontBase) / 5]'(by have h2 := h.2; unfold fontSize at h2; omega))[(a - fontBase) % 5]'(by omega)
  else 0

/-- The canonical form: addresses strictly rising and inside Memory, and no entry that says what an unlisted address says. -/
abbrev Memory.wf (m : Memory) : Prop :=
  m.Pairwise (fun c d => c.1 < d.1) ∧ ∀ c ∈ m, c.1 < memSize ∧ c.2 ≠ resetByte c.1

/-- MemRead(a, 1) for an address a of Memory (00_scope.md R10). -/
def Memory.read : Memory → Nat → Byte
  | [], a => resetByte a
  | c :: m, a => if c.1 = a then c.2 else Memory.read m a

/-- The entry that makes address `a` read as `v`: none where an unlisted address already does. -/
def cellFor (a : Nat) (v : Byte) : Memory := if v = resetByte a then [] else [(a, v)]

/-- MemWrite(a, 1, v) for an address a of Memory (00_scope.md R10), keeping the canonical form. -/
def Memory.write : Memory → Nat → Byte → Memory
  | [], a, v => cellFor a v
  | c :: m, a, v =>
    if a < c.1 then cellFor a v ++ c :: m
    else if a = c.1 then cellFor a v ++ m
    else c :: Memory.write m a v

/-- Writing consecutive bytes from address `a` upward. -/
def Memory.writeBytes (m : Memory) (a : Nat) : List Byte → Memory
  | [] => m
  | b :: bs => Memory.writeBytes (m.write a b) (a + 1) bs

/-- The bytes at `a`, `a + 1`, ..., `a + n - 1`. -/
def Memory.readBytes (m : Memory) (a n : Nat) : List Byte := (List.range n).map fun k => m.read (a + k)

end Sys2Proof.Machine
end

