-- ==== Sys2Proof/Machine/State.lean ====
section
/-! DEFINITION. The architectural state (10_state.md R43), the errors and the fault record, the ways a step can stop, and reset. -/

namespace Sys2Proof.Machine

/-- The six error kinds, one closed enumeration with the information each records (60_exceptions.md R140, D16). -/
inductive Error where
  /-- Load-time: the host loaded zero bytes. -/
  | emptyProgram
  /-- Load-time: the host loaded more than 3584 bytes. -/
  | programTooLarge
  /-- Execution-time, CallSubroutine at capacity: the return address that was not pushed. -/
  | stackOverflow (ret : Word)
  /-- Execution-time, StopSubroutine on an empty stack. -/
  | stackUnderflow
  /-- Execution-time, Display with [I, I+n) not inside Memory: I and n. -/
  | memoryOutOfBounds (index : Word) (n : RowCount)
  /-- Execution-time, UnknownInstruction: the raw word. -/
  | unsupportedOpcode (raw : Word)
deriving DecidableEq, Repr

/-- The class column of 60_exceptions.md R140. -/
def Error.isExecutionTime : Error → Bool
  | .emptyProgram => false
  | .programTooLarge => false
  | .stackOverflow _ => true
  | .stackUnderflow => true
  | .memoryOutOfBounds _ _ => true
  | .unsupportedOpcode _ => true

/-- The modes of the execution state machine, with the fault record (10_state.md R40, R41). -/
inductive Mode where
  /-- "after construction/load, before any cycle". -/
  | ready
  /-- "cycling". -/
  | running
  /-- A cycle reported the fatal error `e`; only construction leaves this mode. -/
  | faulted (e : Error)
deriving DecidableEq, Repr

/-- The frame buffer: 32 rows of 64 one-bit pixels (10_state.md R34, R43). The pixel at column x is bit x of its row, ON when the
bit is 1. That layout is "an internal choice" (D14), and nothing but `FrameBuffer.pixel` reads it. -/
abbrev FrameBuffer := Vector (BitVec 64) 32

/-- How a step can stop. An execution-time error of the core is NOT one of these: it is a next state in mode Faulted
(60_exceptions.md R143). -/
inductive Fault where
  /-- Raised by `step`'s fetch alone, at a pc that is no address of Memory: MemRead is "defined only for 0 ≤ addr < 4096"
  (00_scope.md R10). Only a state with pc ≥ 0x1000 raises it, and no run reaches one (10_state.md R26). SAFE: the spec gives
  such a fetch no meaning. -/
  | noSuchAddress (addr : Nat)
deriving DecidableEq, Repr

/-- Why an instruction has no meaning here. -/
inductive Refusal where
  /-- Raised only by an arm of `exec` whose instruction has no meaning yet; no arm of this model does. SAFE: the step stops. -/
  | notModelled (mnemonic : String)
deriving DecidableEq, Repr

/-- The complete state of the block (10_state.md R43). -/
structure State where
  /-- Memory, 4096 bytes (20_memory.md R50). -/
  mem : Memory
  /-- V0 to VF; register 15 is the collision flag (R20, R22). -/
  v : Vector Byte 16
  /-- The index register I (R28). -/
  index : Word
  /-- The program counter (R24). -/
  pc : Word
  /-- The call stack, the most recently pushed entry first (R30). -/
  stack : List Word
  /-- The frame buffer FB (R34). -/
  fb : FrameBuffer
  /-- The delay timer (R38). -/
  delay : Byte
  /-- The sound timer (R38). -/
  sound : Byte
  /-- The mode, with the fault record (R40, R41). -/
  mode : Mode
deriving DecidableEq, Repr

/-- Construction (70_reset_and_hazards.md R170): Memory holds its reset contents, so nothing is listed. -/
def State.reset : State where
  mem := []
  v := Vector.replicate 16 0
  index := 0
  pc := config.resetPc
  stack := []
  fb := Vector.replicate 32 0
  delay := 0
  sound := 0
  mode := .ready

end Sys2Proof.Machine
end

