-- ==== Sys2Proof/Machine/Ops.lean ====
section
/-! DEFINITION. The named operations over the state that the meanings and the step share: registers, pc, call stack, frame
buffer, the fetch, taking an execution-time error, and completing a cycle. -/

namespace Sys2Proof.Machine

/-! ## Registers (10_state.md R20 to R29) -/

/-- `V[x]`. -/
def State.readV (s : State) (x : RegNum) : Byte := s.v[x.val]

/-- `V[x] <- b`. -/
def State.writeV (s : State) (x : RegNum) (b : Byte) : State := { s with v := s.v.set x.val b }

/-- `I <- w`. -/
def State.setIndex (s : State) (w : Word) : State := { s with index := w }

/-- `pc <- w`. -/
def State.setPc (s : State) (w : Word) : State := { s with pc := w }

/-- A 12-bit address as the contents of the 16-bit pc or I, `zext_16(nnn)` (30_encoding.md R72). -/
def zextAddr (nnn : Addr) : Word := nnn.setWidth 16

/-- The general register that is the collision flag (10_state.md R22). -/
def flagReg : RegNum := 0xF

/-! ## Call stack (10_state.md R30, R31; 00_scope.md R10) -/

/-- `depth`, the number of entries. -/
def State.depth (s : State) : Nat := s.stack.length

/-- `Push(w)`. -/
def State.push (s : State) (w : Word) : State := { s with stack := w :: s.stack }

/-- `Pop()`: the most recently pushed entry and the state without it; nothing on an empty stack. -/
def State.pop (s : State) : Option (Word × State) :=
  match s.stack with
  | [] => none
  | w :: rest => some (w, { s with stack := rest })

/-! ## Frame buffer (10_state.md R34, 43_display.md R128) -/

/-- `FB[y][x]`, `true` for ON. -/
def FrameBuffer.pixel (fb : FrameBuffer) (x : Fin 64) (y : Fin 32) : Bool := fb[y.val].getLsbD x.val

/-- `FB[y][x] <- FB[y][x] ^ b`: an ON bit toggles the pixel, an OFF bit leaves it (R128). -/
def FrameBuffer.xorPixel (fb : FrameBuffer) (x : Fin 64) (y : Fin 32) (b : Bool) : FrameBuffer :=
  if b then fb.set y.val (fb[y.val] ^^^ BitVec.twoPow 64 x.val) else fb

/-- The frame buffer with every pixel 0. -/
def FrameBuffer.clear : FrameBuffer := Vector.replicate 32 0

/-- The frame buffer replaced. -/
def State.setFb (s : State) (fb : FrameBuffer) : State := { s with fb := fb }

/-! ## Taking an execution-time error, and completing a cycle -/

/-- The mode written. -/
def State.setMode (s : State) (m : Mode) : State := { s with mode := m }

/-- `raise e`, the fault entry of 60_exceptions.md R143: no register, stack entry, pixel or byte is written, pc keeps the value
the fetch gave it, and the mode records the error. There is no return from it (R144). -/
def State.raise (s : State) (e : Error) : State := s.setMode (.faulted e)

/-- The mode after a cycle: an error stays recorded, otherwise Running (40_cycle.md R90, 10_state.md R42). -/
def Mode.afterCycle : Mode → Mode
  | .ready => .running
  | .running => .running
  | .faulted e => .faulted e

/-- The end of a cycle (40_cycle.md R90). -/
def State.finishCycle (s : State) : State := s.setMode s.mode.afterCycle

/-- What a cycle answers once its instruction has run. -/
def completeCycle : Host.Outcome State Fault Refusal → Host.Outcome State Fault Refusal
  | .next s => .next s.finishCycle
  | .fault f => .fault f
  | .refused r => .refused r

/-! ## Fetch (40_cycle.md R91) -/

/-- `(pc + 2) mod 4096`. -/
def advancePc (pc : Word) : Word := BitVec.ofNat 16 ((pc.toNat + 2) % memSize)

/-- The word at pc, the first byte high, the second read at `(pc + 1) mod 4096` (20_memory.md R56, R57). -/
def State.wordAtPc (s : State) : Word :=
  wordOfBytes (s.mem.read s.pc.toNat) (s.mem.read ((s.pc.toNat + 1) % memSize))

/-- `fetch()`: the word at pc, and pc advanced. It stops only where MemRead is not defined: at a pc outside Memory, and at
pc = 0xFFF under the parameter value `FetchWrap.stop`, which this core does not take. -/
def State.fetch (s : State) : Except Fault (Word × State) :=
  if s.pc.toNat < memSize then
    if s.pc.toNat + 1 = memSize ∧ config.fetchWrap = .stop then .error (.noSuchAddress memSize)
    else .ok (s.wordAtPc, s.setPc (advancePc s.pc))
  else .error (.noSuchAddress s.pc.toNat)

end Sys2Proof.Machine
end

