-- ==== Sys2Proof/Machine/ControlFlow.lean ====
section
/-! DEFINITION. Jump, CallSubroutine and StopSubroutine (41_control_flow.md). In each, pc already holds the instruction's
address plus 2 modulo 4096 (10_state.md R25). -/

namespace Sys2Proof.Machine

/-- Jump(nnn), R100. -/
def execJump (nnn : Addr) (s : State) : Host.Outcome State Fault Refusal :=
  .next (s.setPc (zextAddr nnn))

/-- CallSubroutine(nnn), R101: the return address is pushed, or, at capacity, recorded in StackOverflow. -/
def execCallSubroutine (nnn : Addr) (s : State) : Host.Outcome State Fault Refusal :=
  if s.depth = config.stackCapacity then .next (s.raise (.stackOverflow s.pc))
  else .next ((s.push s.pc).setPc (zextAddr nnn))

/-- StopSubroutine, R102: the popped entry becomes pc, or, on an empty stack, StackUnderflow is raised. -/
def execStopSubroutine (s : State) : Host.Outcome State Fault Refusal :=
  match s.pop with
  | none => .next (s.raise .stackUnderflow)
  | some (ret, t) => .next (t.setPc ret)

end Sys2Proof.Machine
end

