-- ==== Sys2Proof/Machine/Operands.lean ====
section
/-! DEFINITION. The operands of Display: its origin, its sprite rows, and the sprite bits that land on the screen
(43_display.md R121 to R127). The other instructions' operands are register numbers and immediates, read by Ops. -/

namespace Sys2Proof.Machine

/-- `x0 = V[x] mod 64`, reduced once (R127). -/
def originX (b : Byte) : Fin 64 := ⟨b.toNat % 64, Nat.mod_lt _ (by decide)⟩

/-- `y0 = V[y] mod 32`, reduced once (R127). -/
def originY (b : Byte) : Fin 32 := ⟨b.toNat % 32, Nat.mod_lt _ (by decide)⟩

/-- Display's bound: the n bytes at I lie inside Memory, as integers (R122). -/
def spriteInMemory (index : Word) (n : RowCount) : Bool := index.toNat + n.val ≤ memSize

/-- `row[i]` for i in 0..n-1 (R121, step 2). -/
def State.spriteRows (s : State) (n : RowCount) : List Byte := s.mem.readBytes s.index.toNat n.val

/-- Column j of a sprite row, j = 0 the leftmost: bit 7 - j of the byte (R121). -/
def spriteBit (row : Byte) (j : Nat) : Bool := row.getMsbD j

/-- A sprite bit and the pixel it lands on. -/
structure PlacedBit where
  x : Fin 64
  y : Fin 32
  bit : Bool
deriving DecidableEq, Repr

/-- Sprite bit (i, j) of row i at its target position; none where the row or the column is clipped (R124). -/
def placeBit (x0 : Fin 64) (y0 : Fin 32) (i : Nat) (row : Byte) (j : Nat) : Option PlacedBit :=
  if h : y0.val + i < 32 ∧ x0.val + j < 64 then some ⟨⟨x0.val + j, h.2⟩, ⟨y0.val + i, h.1⟩, spriteBit row j⟩
  else none

/-- The unclipped bits of sprite row i, from left to right. -/
def placeRow (x0 : Fin 64) (y0 : Fin 32) (i : Nat) (row : Byte) : List PlacedBit :=
  (List.range 8).filterMap (placeBit x0 y0 i row)

/-- The unclipped bits of the sprite rows from row i down: the pairs (i, j) that R121's two loops run over, in their order. -/
def placeRows (x0 : Fin 64) (y0 : Fin 32) (i : Nat) : List Byte → List PlacedBit
  | [] => []
  | row :: rows => placeRow x0 y0 i row ++ placeRows x0 y0 (i + 1) rows

/-- Every unclipped bit of the sprite. -/
def placeSprite (x0 : Fin 64) (y0 : Fin 32) (rows : List Byte) : List PlacedBit := placeRows x0 y0 0 rows

/-- Step 5 of R121: every unclipped bit is XORed into its pixel (R128). -/
def FrameBuffer.drawBits (fb : FrameBuffer) (bits : List PlacedBit) : FrameBuffer :=
  bits.foldl (fun acc p => acc.xorPixel p.x p.y p.bit) fb

end Sys2Proof.Machine
end

