-- ==== Sys2Proof/Machine/Flags.lean ====
section
/-! DEFINITION. The one flag of the core, the collision flag V[0xF] (10_state.md R22, R37), and how Display computes it
(43_display.md R123). No instruction computes a carry (90_conflicts.md C6). -/

namespace Sys2Proof.Machine

/-- `hit` of R121: some ON sprite bit lands on an ON pixel, over the whole sprite, clipped bits taking no part (R123). -/
def FrameBuffer.collides (fb : FrameBuffer) (bits : List PlacedBit) : Bool :=
  bits.any fun p => p.bit && fb.pixel p.x p.y

/-- The flag's value as a register's contents. -/
def flagByte (hit : Bool) : Byte := if hit then 1 else 0

/-- `V[0xF] <- hit`. -/
def State.setCollision (s : State) (hit : Bool) : State := s.writeV flagReg (flagByte hit)

end Sys2Proof.Machine
end

