-- ==== Sys2Proof/Machine/Display.lean ====
section
/-! DEFINITION. ClearScreen and Display (43_display.md). -/

namespace Sys2Proof.Machine

/-- ClearScreen, R120. -/
def execClearScreen (s : State) : Host.Outcome State Fault Refusal :=
  .next (s.setFb FrameBuffer.clear)

/-- Display(x, y, n), R121: the origin is read first, the bound is tested before any write, the collision is computed for the
whole sprite before the XOR, and VF is written last. -/
def execDisplay (x y : RegNum) (n : RowCount) (s : State) : Host.Outcome State Fault Refusal :=
  let x0 := originX (s.readV x)
  let y0 := originY (s.readV y)
  if spriteInMemory s.index n then
    let bits := placeSprite x0 y0 (s.spriteRows n)
    let hit := s.fb.collides bits
    .next ((s.setFb (s.fb.drawBits bits)).setCollision hit)
  else .next (s.raise (.memoryOutOfBounds s.index n))

end Sys2Proof.Machine
end

