-- ==== Sys2Proof/Machine/Register.lean ====
section
/-! DEFINITION. SetRegister, AddToRegister and SetIndex (42_register.md). -/

namespace Sys2Proof.Machine

/-- SetRegister(x, kk), R110. -/
def execSetRegister (x : RegNum) (kk : Byte) (s : State) : Host.Outcome State Fault Refusal :=
  .next (s.writeV x kk)

/-- AddToRegister(x, kk), R111: the 8-bit wrapped sum, with no carry recorded. -/
def execAddToRegister (x : RegNum) (kk : Byte) (s : State) : Host.Outcome State Fault Refusal :=
  .next (s.writeV x (BitVec.ofNat 8 (((s.readV x).toNat + kk.toNat) % 256)))

/-- SetIndex(nnn), R112. -/
def execSetIndex (nnn : Addr) (s : State) : Host.Outcome State Fault Refusal :=
  .next (s.setIndex (zextAddr nnn))

end Sys2Proof.Machine
end

