-- ==== Sys2Proof/Machine/Unknown.lean ====
section
/-! DEFINITION. UnknownInstruction (40_cycle.md R93). -/

namespace Sys2Proof.Machine

/-- UnknownInstruction(raw), R93: UnsupportedOpcode(raw) is raised under UNKNOWN_POLICY = hard-fail (D1), the parameter's value
here; under `skip` the word has no effect. -/
def execUnknownInstruction (raw : Word) (s : State) : Host.Outcome State Fault Refusal :=
  match config.unknownPolicy with
  | .hardFail => .next (s.raise (.unsupportedOpcode raw))
  | .skip => .next s

end Sys2Proof.Machine
end

