-- ==== Sys2Proof/Machine/Dispatch.lean ====
section
/-! DEFINITION. The dispatch of 40_cycle.md R92: one arm per variant, no default arm. -/

namespace Sys2Proof.Machine

/-- Executing one decoded instruction, with pc already advanced by the fetch (10_state.md R25). -/
def exec (i : Instr) (s : State) : Host.Outcome State Fault Refusal :=
  match i with
  | .clearScreen => Sys2Proof.Machine.execClearScreen s
  | .stopSubroutine => Sys2Proof.Machine.execStopSubroutine s
  | .jump nnn => Sys2Proof.Machine.execJump nnn s
  | .callSubroutine nnn => Sys2Proof.Machine.execCallSubroutine nnn s
  | .setRegister x kk => Sys2Proof.Machine.execSetRegister x kk s
  | .addToRegister x kk => Sys2Proof.Machine.execAddToRegister x kk s
  | .setIndex nnn => Sys2Proof.Machine.execSetIndex nnn s
  | .display x y n => Sys2Proof.Machine.execDisplay x y n s
  | .unknownInstruction raw => Sys2Proof.Machine.execUnknownInstruction raw s

end Sys2Proof.Machine
end

