-- ==== Sys2Proof/Machine/Step.lean ====
section
/-! DEFINITION. The step: one cycle (40_cycle.md R90). -/

namespace Sys2Proof.Machine

/-- One cycle (R90): in mode Faulted nothing happens (R96); otherwise fetch, decode, execute, and the mode afterwards. What the
host is answered, Ok or Err(e), is read from the mode of the next state (Machine/HostPort.lean, `State.cycleResult`). -/
def step (s : State) : Host.Outcome State Fault Refusal :=
  match s.mode with
  | .faulted _ => .next s
  | .ready | .running =>
    match s.fetch with
    | .error f => .fault f
    | .ok (w, t) => completeCycle (exec (decode w) t)

/-- The state `s` with the instruction word `tableWord nbits w` in the two bytes the next cycle fetches, and not in mode
Faulted (in which no cycle fetches). It stands for an explicit launch state (70_reset_and_hazards.md R181). -/
def State.withFetchWord (s : State) (nbits w : Nat) : State :=
  let word := tableWord nbits w
  let at0 := s.pc.toNat % memSize
  { s with
    mem := (s.mem.write at0 (highByte word)).write ((at0 + 1) % memSize) (lowByte word)
    mode := match s.mode with
      | .ready => .ready
      | .running => .running
      | .faulted _ => .ready }

end Sys2Proof.Machine
end

