-- ==== Sys2Proof/Machine/HostPort.lean ====
section
/-! DEFINITION. The host's operations on the block (70_reset_and_hazards.md R170 to R177; 60_exceptions.md R152 to R156), each
indivisible with respect to cycles (20_memory.md R59). -/

namespace Sys2Proof.Machine

/-- What a load or a cycle answers: Ok or Err(e) (40_cycle.md R95, 70_reset_and_hazards.md R172). -/
inductive Result where
  | ok
  | err (e : Error)
deriving DecidableEq, Repr

/-! ## Load (70_reset_and_hazards.md R172 to R175) -/

/-- The mode after a successful load: Ready, but a fault record stays (R172, D17). -/
def Mode.afterLoad : Mode → Mode
  | .ready => .ready
  | .running => .ready
  | .faulted e => .faulted e

/-- What a load does before it copies: nothing under the parameter value `keep` (R175, D5); under `rezero` the program area and
the registers V0-VF and I are zeroed. -/
def State.beforeLoad (s : State) : State :=
  match config.reloadPolicy with
  | .keep => s
  | .rezero =>
    { s with mem := s.mem.writeBytes progBase (List.replicate progMax 0), v := Vector.replicate 16 0, index := 0 }

/-- The program bytes copied to 0x200 upward. -/
def State.copyProgram (s : State) (src : List Byte) : State :=
  { s with mem := s.mem.writeBytes progBase src, mode := s.mode.afterLoad }

/-- `load(src)` of R172: the length is validated before any byte is copied, so a rejected load changes nothing (R173). -/
def load (src : List Byte) (s : State) : Result × State :=
  if src.length = 0 then (.err .emptyProgram, s)
  else if src.length > progMax then (.err .programTooLarge, s)
  else (.ok, s.beforeLoad.copyProgram src)

/-! ## Cycle -/

/-- The last error: what the mode records (R176, "read mode / last error"). -/
def State.lastError (s : State) : Option Error :=
  match s.mode with
  | .ready => none
  | .running => none
  | .faulted e => some e

/-- What a cycle that ended in this state answered (40_cycle.md R90, R96). -/
def State.cycleResult (s : State) : Result :=
  match s.lastError with
  | none => .ok
  | some e => .err e

/-- `cycle()` with its answer. -/
def cycle (s : State) : Host.Outcome (Result × State) Fault Refusal :=
  match step s with
  | .next t => .next (t.cycleResult, t)
  | .fault f => .fault f
  | .refused r => .refused r

/-! ## Frame-buffer read and timers -/

/-- The accessor `pixel(x, y) = FB[y][x]` (60_exceptions.md R155). -/
def State.pixel (s : State) (x : Fin 64) (y : Fin 32) : Bool := s.fb.pixel x y

/-- The 64×32 pixel grid the host reads, row by row through the accessor (60_exceptions.md R155, R156). -/
def State.pixelGrid (s : State) : Vector (Vector Bool 64) 32 :=
  Vector.ofFn fun y => Vector.ofFn fun x => s.pixel x y

/-- The two timers (10_state.md R38). -/
inductive Timer where
  | delay
  | sound
deriving DecidableEq, Repr

/-- Reading a timer (60_exceptions.md R152). -/
def State.readTimer (s : State) : Timer → Byte
  | .delay => s.delay
  | .sound => s.sound

/-- A decrement, which leaves 0 at 0 (60_exceptions.md R153). -/
def decrementByte (b : Byte) : Byte := if b = 0 then 0 else b - 1

/-- Decrementing a timer (60_exceptions.md R152, R153). -/
def State.decrementTimer (s : State) : Timer → State
  | .delay => { s with delay := decrementByte s.delay }
  | .sound => { s with sound := decrementByte s.sound }

/-! ## The whole interface -/

/-- The host's moves (70_reset_and_hazards.md R176); it has no other (R177). -/
inductive HostOp where
  | construct
  | load (src : List Byte)
  | cycle
  | readFrameBuffer
  | readTimer (t : Timer)
  | decrementTimer (t : Timer)
  | readMode
deriving DecidableEq, Repr

/-- What the host gets (R176). -/
inductive HostReply where
  | nothing
  | result (r : Result)
  | pixels (grid : Vector (Vector Bool 64) 32)
  | timer (b : Byte)
  | mode (m : Mode)
deriving DecidableEq, Repr

/-- One host operation: the reply and the state after it. -/
def hostOp (op : HostOp) (s : State) : Host.Outcome (HostReply × State) Fault Refusal :=
  match op with
  | .construct => .next (.nothing, State.reset)
  | .load src => .next (.result (load src s).1, (load src s).2)
  | .cycle =>
    match cycle s with
    | .next (r, t) => .next (.result r, t)
    | .fault f => .fault f
    | .refused r => .refused r
  | .readFrameBuffer => .next (.pixels s.pixelGrid, s)
  | .readTimer t => .next (.timer (s.readTimer t), s)
  | .decrementTimer t => .next (.nothing, s.decrementTimer t)
  | .readMode => .next (.mode s.mode, s)

/-- The launch state of R181: construction, the program loaded, pc named, mode Ready. No host operation reaches it (R180). -/
def launch (src : List Byte) (pc : Word) : State := (load src State.reset).2.setPc pc

end Sys2Proof.Machine
end

