-- ==== Sys2Proof/Safety.lean ====
section
/-! DEFINITION. What counts as a good state and a good run, in the terms the claims use: the invariants the spec states over the
state, and the states the host can reach. -/

namespace Sys2Proof.Machine

/-- The error a mode records is an execution-time one (10_state.md R41). -/
def Mode.recordsExecutionError : Mode → Bool
  | .ready => true
  | .running => true
  | .faulted e => e.isExecutionTime

/-- The invariants the spec states: pc < 0x1000 (10_state.md R26), I < 0x1000 (R28), depth ≤ STACK_CAPACITY (R30, R31), every stack
entry < 0x1000 (R33), a fault record that is an execution-time error (R41); and Memory in its canonical form. -/
abbrev State.Inv (s : State) : Prop :=
  s.pc.toNat < memSize ∧ s.index.toNat < memSize ∧ s.depth ≤ config.stackCapacity ∧
  s.stack.all (fun w => w.toNat < memSize) = true ∧ s.mode.recordsExecutionError = true ∧ s.mem.wf

/-- The block still executes: it is Ready or Running (10_state.md R40, 40_cycle.md R96). -/
def State.alive (s : State) : Bool := s.lastError.isNone

/-! ## What two states have in common -/

/-- Every byte of Memory reads as before. -/
abbrev sameMemory (s t : State) : Prop := ∀ a, a < memSize → t.mem.read a = s.mem.read a

/-- Every general register, the collision flag among them, holds what it held. -/
abbrev sameRegisters (s t : State) : Prop := ∀ r, t.readV r = s.readV r

/-- Every pixel is as before. -/
abbrev samePixels (s t : State) : Prop := ∀ x y, t.pixel x y = s.pixel x y

/-- Both timers are as before. -/
abbrev sameTimers (s t : State) : Prop := t.delay = s.delay ∧ t.sound = s.sound

/-! ## Where a sprite is ON -/

/-- Display(x, y, n)'s sprite has an unclipped ON bit at pixel (X, Y): with the origin x0 = V[x] mod 64 and y0 = V[y] mod 32, Y is one of
the rows y0 .. y0 + n - 1, X one of the columns x0 .. x0 + 7, and bit 7 - (X - x0) of the byte at I + (Y - y0) is 1
(43_display.md R121, R124, R127). Pixels past an edge do not exist, so clipped bits have no (X, Y). -/
def State.spriteOn (s : State) (x y : RegNum) (n : RowCount) (X : Fin 64) (Y : Fin 32) : Bool :=
  let x0 := (s.readV x).toNat % 64
  let y0 := (s.readV y).toNat % 32
  decide (y0 ≤ Y.val ∧ Y.val < y0 + n.val ∧ x0 ≤ X.val ∧ X.val < x0 + 8) &&
    (s.mem.read (s.index.toNat + (Y.val - y0))).getLsbD (7 - (X.val - x0))

/-! ## Reachable states -/

/-- The states a host reaches from construction by the operations of 70_reset_and_hazards.md R176. -/
inductive HostReachable : State → Prop where
  | constructed : HostReachable State.reset
  | moved {s t : State} {op : HostOp} {r : HostReply} :
      HostReachable s → hostOp op s = .next (r, t) → HostReachable t

end Sys2Proof.Machine
end

