-- ==== Sys2Proof/Certificates/Slice0/Obligations.lean ====
section
/-! DEFINITION. The statements for the provers, from the numbered rules of spec/. Each docstring names the rule, and, where the statement
rests on a decision of the spec's (92_eei_decisions.md) or of the model's, the decision or the log entry. -/

open Sys2Proof Sys2Proof.Machine

/-! ## Encoding -/

/-- The worked decodings of the source (95_test_vectors.md L1-2a to L1-2g), and one word of the unknown space (section 2.2). -/
def Obligations.DecodeOfTheSpecsWords : Prop :=
  decode 0x00E0 = .clearScreen ∧ decode 0x00EE = .stopSubroutine ∧ decode 0x1ABC = .jump 0xABC ∧
  decode 0x2FFF = .callSubroutine 0xFFF ∧ decode 0x6A3F = .setRegister 0xA 0x3F ∧ decode 0x7B10 = .addToRegister 0xB 0x10 ∧
  decode 0xAFE0 = .setIndex 0xFE0 ∧ decode 0xD123 = .display 1 2 3 ∧ decode 0x8014 = .unknownInstruction 0x8014

/-- 30_encoding.md R73 with the operands of R72: the two literals, then the top nibble, then UnknownInstruction. -/
def Obligations.DecodeByLiteralThenTopNibble : Prop :=
  decode 0x00E0 = .clearScreen ∧ decode 0x00EE = .stopSubroutine ∧
  ∀ w : Word, w ≠ 0x00E0 → w ≠ 0x00EE →
    (w.toNat / 4096 = 0x1 → ∃ a : Addr, decode w = .jump a ∧ a.toNat = w.toNat % 4096) ∧
    (w.toNat / 4096 = 0x2 → ∃ a : Addr, decode w = .callSubroutine a ∧ a.toNat = w.toNat % 4096) ∧
    (w.toNat / 4096 = 0x6 → ∃ (x : RegNum) (k : Byte), decode w = .setRegister x k ∧
      x.val = w.toNat / 256 % 16 ∧ k.toNat = w.toNat % 256) ∧
    (w.toNat / 4096 = 0x7 → ∃ (x : RegNum) (k : Byte), decode w = .addToRegister x k ∧
      x.val = w.toNat / 256 % 16 ∧ k.toNat = w.toNat % 256) ∧
    (w.toNat / 4096 = 0xA → ∃ a : Addr, decode w = .setIndex a ∧ a.toNat = w.toNat % 4096) ∧
    (w.toNat / 4096 = 0xD → ∃ (x y : RegNum) (n : RowCount), decode w = .display x y n ∧
      x.val = w.toNat / 256 % 16 ∧ y.val = w.toNat / 16 % 16 ∧ n.val = w.toNat % 16) ∧
    (w.toNat / 4096 ∉ [0x1, 0x2, 0x6, 0x7, 0xA, 0xD] → decode w = .unknownInstruction w)

/-- 30_encoding.md R80 (marked by the spec as derived from R73), on words and on bytes: decoding what was encoded gives the
instruction back, for every well-formed instruction and every operand value, and consumes exactly two bytes (R70). -/
def Obligations.DecodeOfEncodeIsTheInstruction : Prop :=
  ∀ i : Instr, i.wellFormed = true →
    decode (encode i) = i ∧ ∀ rest : List Byte, decodeBytes (encodeBytes i ++ rest) = .ok (i, rest)

/-- 30_encoding.md R80, the other direction: encoding what was decoded gives the word back, and decoding gives well-formed
instructions only. -/
def Obligations.EncodeOfDecodeIsTheWord : Prop :=
  ∀ w : Word, encode (decode w) = w ∧ (decode w).wellFormed = true

/-- 30_encoding.md R75: a word decodes to a row's variant exactly when `w & mask == match` selects that row, and to
UnknownInstruction exactly when no row is selected. -/
def Obligations.OpcodeTableSelectsTheVariant : Prop :=
  ∀ w : Word,
    (∀ r ∈ opcodeRows, r.selects w = true ↔ (decode w).variant = r.variant) ∧
    ((decode w).variant = .unknownInstruction ↔ ∀ r ∈ opcodeRows, r.selects w = false)

/-! ## The cycle -/

/-- 10_state.md R24: every fetch advances pc by 2 modulo 4096, and changes nothing else (40_cycle.md R91). -/
def Obligations.FetchAdvancesPcByTwoModulo4096 : Prop :=
  ∀ s : State, s.pc.toNat < 4096 → ∃ w t, s.fetch = .ok (w, t) ∧ t.pc.toNat = (s.pc.toNat + 2) % 4096 ∧
    sameRegisters s t ∧ t.index = s.index ∧ t.stack = s.stack ∧ samePixels s t ∧ sameTimers s t ∧ t.mode = s.mode ∧
    sameMemory s t

/-- 20_memory.md R56 and R57: the fetched word has the byte at pc as its high byte and the byte at (pc + 1) mod 4096 as its low
byte, at every pc, odd or even. That pc = 0xFFF reads its second byte from 0x000 is the spec's decision D3 (log 7). -/
def Obligations.FetchReadsTheWordFirstByteHigh : Prop :=
  ∀ s : State, s.pc.toNat < 4096 → ∃ w t, s.fetch = .ok (w, t) ∧
    w.toNat = (s.mem.read s.pc.toNat).toNat * 256 + (s.mem.read ((s.pc.toNat + 1) % 4096)).toNat

/-- The model's choice (log 3): a block that executes stops by name at a pc that is no address of Memory, which no run reaches
(10_state.md R26). -/
def Obligations.FetchOutsideMemoryStopsByName : Prop :=
  ∀ s : State, s.alive = true → 4096 ≤ s.pc.toNat → step s = .fault (.noSuchAddress s.pc.toNat)

/-- 40_cycle.md R90: when the two bytes at pc decode to `i`, the cycle runs `i` on the state whose pc has advanced by 2 modulo 4096, and
then sets the mode to Running unless an error was recorded. -/
def Obligations.StepRunsTheDecodedInstruction : Prop :=
  ∀ (s : State) (i : Instr), s.alive = true → s.pc.toNat < 4096 →
    decodeBytes [s.mem.read s.pc.toNat, s.mem.read ((s.pc.toNat + 1) % 4096)] = .ok (i, []) →
    (∀ u, exec i { s with pc := BitVec.ofNat 16 ((s.pc.toNat + 2) % 4096) } = .next u →
      step s = .next { u with mode := if u.alive then .running else u.mode }) ∧
    (∀ f, exec i { s with pc := BitVec.ofNat 16 ((s.pc.toNat + 2) % 4096) } = .fault f → step s = .fault f) ∧
    (∀ r, exec i { s with pc := BitVec.ofNat 16 ((s.pc.toNat + 2) % 4096) } = .refused r → step s = .refused r)

/-- 40_cycle.md R96, the spec's decision D2: a cycle of a faulted block changes nothing and answers the recorded error again. -/
def Obligations.FaultedCycleChangesNothing : Prop :=
  ∀ (s : State) (e : Error), s.mode = .faulted e → step s = .next s ∧ cycle s = .next (.err e, s)

/-- 10_state.md R42, the spec's decisions D2 and D20: a cycle of a Ready or Running block ends in Running, answering Ok, or in
Faulted(e) with an execution-time error e, answering Err(e). -/
def Obligations.CycleEndsRunningOrFaulted : Prop :=
  ∀ (s t : State) (r : Result), s.alive = true → cycle s = .next (r, t) →
    (r = .ok ∧ t.mode = .running) ∨ (∃ e, e.isExecutionTime = true ∧ r = .err e ∧ t.mode = .faulted e)

/-- 60_exceptions.md R143 and 40_cycle.md R94, the spec's decision D2: the state of a faulting cycle is exactly the state after its fetch,
with the error recorded. -/
def Obligations.FaultIsPrecise : Prop :=
  ∀ (s t : State) (e : Error), s.alive = true → step s = .next t → t.mode = .faulted e →
    t = { s with pc := BitVec.ofNat 16 ((s.pc.toNat + 2) % 4096), mode := .faulted e }

/-- 60_exceptions.md R145 (marked by the spec as derived): on a block that executes, an error is recorded exactly by a CallSubroutine at
capacity, a StopSubroutine on an empty stack, a Display out of bounds or an UnknownInstruction, each its own one (R140, D16). In states
that no run reaches it also says what the model deduces: with a depth above 256 a CallSubroutine records no error (log 5), and with I above
0x1000 a Display with n = 0 records MemoryOutOfBounds (log 4). -/
def Obligations.EachErrorHasItsOneCause : Prop :=
  ∀ (i : Instr) (s t : State) (e : Error), s.alive = true → exec i s = .next t →
    (t.mode = .faulted e ↔
      (∃ nnn, i = .callSubroutine nnn ∧ s.depth = 256 ∧ e = .stackOverflow s.pc) ∨
      (i = .stopSubroutine ∧ s.depth = 0 ∧ e = .stackUnderflow) ∨
      (∃ x y n, i = .display x y n ∧ 4096 < s.index.toNat + n.val ∧ e = .memoryOutOfBounds s.index n) ∨
      (∃ raw, i = .unknownInstruction raw ∧ e = .unsupportedOpcode raw))

/-- 60_exceptions.md R147 and 10_state.md R42: Ready and Running cycles behave the same. -/
def Obligations.ReadyAndRunningCyclesAgree : Prop :=
  ∀ s : State, step { s with mode := .ready } = step { s with mode := .running }

/-- 40_cycle.md R97 (marked by the spec as derived): a Jump to its own address is a fixed point, after any number of cycles; only a
Ready mode becomes Running. -/
def Obligations.SelfJumpIsAFixedPoint : Prop :=
  ∀ (s : State) (k : Nat), s.alive = true → s.pc.toNat < 4096 →
    (s.mem.read s.pc.toNat).toNat * 256 + (s.mem.read ((s.pc.toNat + 1) % 4096)).toNat = 0x1000 + s.pc.toNat →
    Host.Core.run Sys2Proof.core (k + 1) s = .next { s with mode := .running }

/-! ## The invariant -/

/-- Construction meets the invariant (10_state.md R26, R28, R30, R33, R41). -/
def Obligations.InvariantAtConstruction : Prop := State.reset.Inv

/-- 10_state.md R26, R28, R31, R33, R41: every cycle keeps pc and I inside Memory, the depth within the capacity, every return address
inside Memory, the record an execution-time error; and Memory canonical. -/
def Obligations.StepKeepsTheInvariant : Prop :=
  ∀ s t : State, s.Inv → step s = .next t → t.Inv

/-- 40_cycle.md R91 and R95: in every state that meets the invariant the cycle answers Ok or Err(e) with a next state; it neither stops
nor is refused. -/
def Obligations.CycleAnswersFromEveryGoodState : Prop :=
  ∀ s : State, s.Inv → ∃ t, step s = .next t ∧ cycle s = .next (t.cycleResult, t)

/-- 70_reset_and_hazards.md R176, R177: every host operation on a state that meets the invariant is answered, and keeps the invariant. -/
def Obligations.HostOperationsKeepTheInvariant : Prop :=
  ∀ (op : HostOp) (s : State), s.Inv → ∃ r t, hostOp op s = .next (r, t) ∧ t.Inv

/-- Equal memories are equal data: two canonical memories that read the same at every address are the same (log 20). -/
def Obligations.CanonicalMemoriesWithEqualBytesAreEqual : Prop :=
  ∀ m m' : Memory, m.wf → m'.wf → (∀ a, a < 4096 → m.read a = m'.read a) → m = m'

/-! ## Construction -/

/-- 70_reset_and_hazards.md R170: every element of the state after construction. The empty stack and the clear screen are the spec's
decision D8, the font bytes its D7: the glyphs are named through the parameter FONT (log 10, 12). -/
def Obligations.ConstructionState : Prop :=
  (∀ (g : Fin 16) (k : Fin 5), State.reset.mem.read (0x050 + 5 * g.val + k.val) = config.font[g.val][k.val]) ∧
  (∀ a, a < 0x050 ∨ 0x0A0 ≤ a → State.reset.mem.read a = 0) ∧
  (∀ r, State.reset.readV r = 0) ∧ State.reset.index = 0 ∧ State.reset.pc = 0 ∧ State.reset.depth = 0 ∧
  (∀ x y, State.reset.pixel x y = false) ∧ State.reset.delay = 0 ∧ State.reset.sound = 0 ∧ State.reset.mode = .ready

/-- 70_reset_and_hazards.md R180 (marked by the spec as derived): whatever program the host loads after construction, the first cycle
fetches 0x0000 and answers Err(UnsupportedOpcode(0x0000)) with pc = 0x002. -/
def Obligations.FirstCycleAfterConstructionAndLoadFaults : Prop :=
  ∀ src : List Byte, ∃ t, cycle (load src State.reset).2 = .next (.err (.unsupportedOpcode 0), t) ∧ t.pc = 2 ∧
    t.mode = .faulted (.unsupportedOpcode 0)

/-! ## Control flow -/

/-- 41_control_flow.md R100: Jump is every word with top nibble 0x1, and sets pc to its 12-bit field; nothing else changes. -/
def Obligations.JumpSetsPcToItsAddress : Prop :=
  (∀ w : Word, w &&& 0xF000 = 0x1000 → decode w = .jump (fieldNnn w)) ∧
  ∀ (nnn : Addr) (s : State), ∃ t, exec (.jump nnn) s = .next t ∧ t.pc.toNat = nnn.toNat ∧
    sameRegisters s t ∧ t.index = s.index ∧ t.stack = s.stack ∧ samePixels s t ∧ sameTimers s t ∧ t.mode = s.mode ∧
    sameMemory s t

/-- 41_control_flow.md R101 at every depth other than the capacity, with STACK_CAPACITY = 256 by the spec's decision D4: the pc after the
fetch is pushed, pc is set, nothing else changes. That a depth above the capacity, which no run reaches, pushes too is the
model's deduction (log 5). -/
def Obligations.CallPushesTheReturnAddress : Prop :=
  (∀ w : Word, w &&& 0xF000 = 0x2000 → decode w = .callSubroutine (fieldNnn w)) ∧
  ∀ (nnn : Addr) (s : State), s.depth ≠ 256 → ∃ t, exec (.callSubroutine nnn) s = .next t ∧
    t.stack = s.pc :: s.stack ∧ t.pc.toNat = nnn.toNat ∧
    sameRegisters s t ∧ t.index = s.index ∧ samePixels s t ∧ sameTimers s t ∧ t.mode = s.mode ∧ sameMemory s t

/-- 41_control_flow.md R101 at capacity, by the spec's decisions D2, D4 and D16: StackOverflow records the return address that was not
pushed, and nothing else is written. -/
def Obligations.CallAtCapacityOverflows : Prop :=
  ∀ (nnn : Addr) (s : State), s.depth = 256 →
    exec (.callSubroutine nnn) s = .next { s with mode := .faulted (.stackOverflow s.pc) }

/-- 41_control_flow.md R102 on a stack that is not empty: the most recently pushed entry becomes pc and leaves the stack; nothing else
changes. -/
def Obligations.ReturnPopsThePcOffTheStack : Prop :=
  decode 0x00EE = .stopSubroutine ∧
  ∀ (s : State) (ret : Word) (rest : List Word), s.stack = ret :: rest → ∃ t, exec .stopSubroutine s = .next t ∧
    t.pc = ret ∧ t.stack = rest ∧
    sameRegisters s t ∧ t.index = s.index ∧ samePixels s t ∧ sameTimers s t ∧ t.mode = s.mode ∧ sameMemory s t

/-- 41_control_flow.md R102 on an empty stack, by the spec's decision D2: StackUnderflow is recorded and nothing else is written. -/
def Obligations.ReturnOnAnEmptyStackUnderflows : Prop :=
  ∀ s : State, s.depth = 0 → exec .stopSubroutine s = .next { s with mode := .faulted .stackUnderflow }

/-- 41_control_flow.md R101 and R102 through two cycles: a CallSubroutine at pc whose target holds the word 0x00EE comes back to the
address after the call with the stack as it was (capacity 256 by D4). -/
def Obligations.CallToAReturnComesBack : Prop :=
  ∀ (s : State) (nnn : Addr), s.alive = true → s.pc.toNat < 4096 → s.depth < 256 →
    (s.mem.read s.pc.toNat).toNat * 256 + (s.mem.read ((s.pc.toNat + 1) % 4096)).toNat = 0x2000 + nnn.toNat →
    s.mem.read nnn.toNat = 0x00 → s.mem.read ((nnn.toNat + 1) % 4096) = 0xEE →
    Host.Core.run Sys2Proof.core 2 s =
      .next { s with pc := BitVec.ofNat 16 ((s.pc.toNat + 2) % 4096), mode := .running }

/-! ## Register instructions -/

/-- 42_register.md R110: SetRegister is every word with top nibble 0x6, and writes its value to its register, VF included; nothing else
changes. -/
def Obligations.SetRegisterWritesItsRegister : Prop :=
  (∀ w : Word, w &&& 0xF000 = 0x6000 → decode w = .setRegister (fieldX w) (fieldKk w)) ∧
  ∀ (x : RegNum) (kk : Byte) (s : State), ∃ t, exec (.setRegister x kk) s = .next t ∧
    t.readV x = kk ∧ (∀ r, r ≠ x → t.readV r = s.readV r) ∧
    t.index = s.index ∧ t.pc = s.pc ∧ t.stack = s.stack ∧ samePixels s t ∧ sameTimers s t ∧ t.mode = s.mode ∧ sameMemory s t

/-- 42_register.md R111: AddToRegister is every word with top nibble 0x7, and writes the sum modulo 256; every other register, VF unless it
is the destination, keeps its value, so no carry is recorded. -/
def Obligations.AddToRegisterWrapsAndRecordsNoCarry : Prop :=
  (∀ w : Word, w &&& 0xF000 = 0x7000 → decode w = .addToRegister (fieldX w) (fieldKk w)) ∧
  ∀ (x : RegNum) (kk : Byte) (s : State), ∃ t, exec (.addToRegister x kk) s = .next t ∧
    (t.readV x).toNat = ((s.readV x).toNat + kk.toNat) % 256 ∧ (∀ r, r ≠ x → t.readV r = s.readV r) ∧
    t.index = s.index ∧ t.pc = s.pc ∧ t.stack = s.stack ∧ samePixels s t ∧ sameTimers s t ∧ t.mode = s.mode ∧ sameMemory s t

/-- 42_register.md R112: SetIndex is every word with top nibble 0xA, and sets I to its 12-bit field, unchecked against any sprite; nothing
else changes. -/
def Obligations.SetIndexStoresItsAddress : Prop :=
  (∀ w : Word, w &&& 0xF000 = 0xA000 → decode w = .setIndex (fieldNnn w)) ∧
  ∀ (nnn : Addr) (s : State), ∃ t, exec (.setIndex nnn) s = .next t ∧ t.index.toNat = nnn.toNat ∧ t.index.toNat < 0x1000 ∧
    sameRegisters s t ∧ t.pc = s.pc ∧ t.stack = s.stack ∧ samePixels s t ∧ sameTimers s t ∧ t.mode = s.mode ∧ sameMemory s t

/-! ## Display instructions -/

/-- 43_display.md R120: ClearScreen is the word 0x00E0, and turns every pixel off; VF and everything else keep their value. -/
def Obligations.ClearScreenTurnsEveryPixelOff : Prop :=
  decode 0x00E0 = .clearScreen ∧
  ∀ s : State, ∃ t, exec .clearScreen s = .next t ∧ (∀ x y, t.pixel x y = false) ∧
    sameRegisters s t ∧ t.index = s.index ∧ t.pc = s.pc ∧ t.stack = s.stack ∧ sameTimers s t ∧ t.mode = s.mode ∧ sameMemory s t

/-- 43_display.md R127, with R121, R124 and R128: a Display in bounds XORs into every pixel the sprite bit that lands there, with the origin
reduced once, and rows and columns past the edge clipped. -/
def Obligations.DisplayXorsTheSpriteAtTheReducedOrigin : Prop :=
  ∀ (x y : RegNum) (n : RowCount) (s : State), s.index.toNat + n.val ≤ 4096 → ∃ t, exec (.display x y n) s = .next t ∧
    ∀ X Y, t.pixel X Y = (s.pixel X Y ^^ s.spriteOn x y n X Y)

/-- 43_display.md R123, with the spec's decision D11 that clipped bits take no part: a Display in bounds writes VF with 1 exactly when
some unclipped ON bit of the whole sprite lands on a pixel that was ON, and with 0 otherwise. -/
def Obligations.DisplayFlagIsTheWholeSpritesCollision : Prop :=
  ∀ (x y : RegNum) (n : RowCount) (s : State), s.index.toNat + n.val ≤ 4096 → ∃ t, exec (.display x y n) s = .next t ∧
    ((∃ X Y, s.spriteOn x y n X Y = true ∧ s.pixel X Y = true) → t.readV 0xF = 1) ∧
    ((∀ X Y, s.spriteOn x y n X Y = true → s.pixel X Y = false) → t.readV 0xF = 0)

/-- The frame of a Display in bounds (43_display.md R121; 10_state.md R21; 20_memory.md R54): V0-VE, I, pc, the stack, the timers, the
mode and every byte of Memory keep their value. -/
def Obligations.DisplayWritesPixelsAndFlagOnly : Prop :=
  ∀ (x y : RegNum) (n : RowCount) (s : State), s.index.toNat + n.val ≤ 4096 → ∃ t, exec (.display x y n) s = .next t ∧
    (∀ r, r ≠ 0xF → t.readV r = s.readV r) ∧
    t.index = s.index ∧ t.pc = s.pc ∧ t.stack = s.stack ∧ sameTimers s t ∧ t.mode = s.mode ∧ sameMemory s t

/-- 43_display.md R122, with the spec's decision D10 that the bound is tested before any write: a Display out of bounds records
MemoryOutOfBounds(I, n) and writes nothing else. That this holds for n = 0 with I above 0x1000, a state no run reaches, where R122 says
that an empty range never faults, is the model's deduction (log 4). -/
def Obligations.DisplayOutOfBoundsFaults : Prop :=
  ∀ (x y : RegNum) (n : RowCount) (s : State), 4096 < s.index.toNat + n.val →
    exec (.display x y n) s = .next { s with mode := .faulted (.memoryOutOfBounds s.index n) }

/-- 43_display.md R122: with I < 0x1000 a Display can fault only for I ≥ 0xFF2, and never with n = 0. -/
def Obligations.DisplayFaultsOnlyNearTheTopOfMemory : Prop :=
  ∀ (x y : RegNum) (n : RowCount) (s t : State), s.alive = true → s.index.toNat < 0x1000 →
    exec (.display x y n) s = .next t → t.alive = false → 0xFF2 ≤ s.index.toNat ∧ n ≠ 0

/-- 43_display.md R126, by the spec's decision D9: Display(x, y, 0) writes VF with 0 and changes nothing else, no pixel either. -/
def Obligations.DisplayOfHeightZeroClearsTheFlagOnly : Prop :=
  ∀ (x y : RegNum) (s : State), s.index.toNat < 0x1000 → ∃ t, exec (.display x y 0) s = .next t ∧
    t.readV 0xF = 0 ∧ (∀ r, r ≠ 0xF → t.readV r = s.readV r) ∧ samePixels s t ∧
    t.index = s.index ∧ t.pc = s.pc ∧ t.stack = s.stack ∧ sameTimers s t ∧ t.mode = s.mode ∧ sameMemory s t

/-- 43_display.md R128, as it follows from R121 and R123: drawing the same sprite twice at the same origin restores every pixel, and the
second draw sets VF to 1 exactly when some unclipped ON bit lands on a pixel that was OFF before the first draw, else to 0 (log 24). -/
def Obligations.DrawingTwiceRestoresTheScreen : Prop :=
  ∀ (x y : RegNum) (n : RowCount) (s : State), s.index.toNat + n.val ≤ 4096 →
    ∃ t u, exec (.display x y n) s = .next t ∧ exec (.display x y n) t = .next u ∧
      ((t.readV x).toNat % 64 = (s.readV x).toNat % 64 → (t.readV y).toNat % 32 = (s.readV y).toNat % 32 →
        samePixels s u ∧
        ((∃ X Y, s.spriteOn x y n X Y = true ∧ s.pixel X Y = false) → u.readV 0xF = 1) ∧
        ((∀ X Y, s.spriteOn x y n X Y = true → s.pixel X Y = true) → u.readV 0xF = 0))

/-- The last clause of 43_display.md R128 AS WRITTEN (marked by the spec as derived from R121 and R123): the second of two equal draws sets
VF to 1 whenever the sprite has an unclipped ON bit. It is expected to FAIL: where every such bit lands on a pixel that was ON, the
first draw turns them OFF and the second meets no ON pixel (log 24). -/
def Obligations.SecondOfTwoDrawsAlwaysCollides : Prop :=
  ∀ (x y : RegNum) (n : RowCount) (s t u : State), exec (.display x y n) s = .next t → exec (.display x y n) t = .next u →
    t.alive = true → (t.readV x).toNat % 64 = (s.readV x).toNat % 64 → (t.readV y).toNat % 32 = (s.readV y).toNat % 32 →
    (∃ X Y, s.spriteOn x y n X Y = true) → u.readV 0xF = 1

/-! ## UnknownInstruction -/

/-- 40_cycle.md R93, by the spec's decision D1 (UNKNOWN_POLICY = hard-fail): every word of the unknown space decodes to
UnknownInstruction, and executing that records UnsupportedOpcode(raw) and writes nothing else. -/
def Obligations.UnknownInstructionRaisesUnsupportedOpcode : Prop :=
  (∀ w : Word, inUnknownSpace w = true → decode w = .unknownInstruction w) ∧
  ∀ (raw : Word) (s : State),
    exec (.unknownInstruction raw) s = .next { s with mode := .faulted (.unsupportedOpcode raw) }

/-- 30_encoding.md R78 and 40_cycle.md R93 (D1) through a cycle: every word of the unknown space, fetched at pc, is answered with
Err(UnsupportedOpcode(word)), pc advanced by 2 modulo 4096, and no other change. -/
def Obligations.CycleOnAnUnknownWordFaults : Prop :=
  ∀ (s : State) (w : Word), s.alive = true → s.pc.toNat < 4096 → inUnknownSpace w = true →
    s.mem.read s.pc.toNat = highByte w → s.mem.read ((s.pc.toNat + 1) % 4096) = lowByte w →
    cycle s = .next (.err (.unsupportedOpcode w),
      { s with pc := BitVec.ofNat 16 ((s.pc.toNat + 2) % 4096), mode := .faulted (.unsupportedOpcode w) })

/-! ## Rules over all instructions -/

/-- 20_memory.md R54 (marked by the spec as derived): no instruction, and no cycle, writes Memory. -/
def Obligations.NoInstructionWritesMemory : Prop :=
  (∀ (i : Instr) (s t : State), exec i s = .next t → sameMemory s t) ∧ (∀ s t : State, step s = .next t → sameMemory s t)

/-- 10_state.md R38: no instruction reads or writes a timer. With other timer values a cycle does the same, and the timers keep them; the
two timers are independent, and the host alone reads and decrements them. -/
def Obligations.NoCycleReadsOrWritesATimer : Prop :=
  (∀ (s t : State) (d k : Byte), step s = .next t → step { s with delay := d, sound := k } = .next { t with delay := d, sound := k }) ∧
  (∀ s : State, (s.decrementTimer .delay).sound = s.sound ∧ (s.decrementTimer .sound).delay = s.delay ∧
    s.readTimer .delay = s.delay ∧ s.readTimer .sound = s.sound)

/-- 10_state.md R35: the frame buffer is written only by ClearScreen and Display, and read only by Display: any other instruction does the
same whatever the pixels are and leaves them, and ClearScreen does the same whatever they are. -/
def Obligations.FrameBufferIsTouchedByDisplayInstructionsOnly : Prop :=
  ∀ (i : Instr) (s t : State) (f : FrameBuffer), (∀ x y n, i ≠ .display x y n) → exec i s = .next t →
    (i = .clearScreen → exec i { s with fb := f } = .next t) ∧
    (i ≠ .clearScreen → samePixels s t ∧ exec i { s with fb := f } = .next { t with fb := f })

/-- 10_state.md R21 (marked by the spec as derived): a general register changes only as the destination of SetRegister or AddToRegister,
or as VF by Display. -/
def Obligations.RegistersChangeOnlyAsDestinations : Prop :=
  ∀ (i : Instr) (s t : State) (r : RegNum), exec i s = .next t → t.readV r ≠ s.readV r →
    (∃ kk, i = .setRegister r kk) ∨ (∃ kk, i = .addToRegister r kk) ∨ (r = 0xF ∧ ∃ x y n, i = .display x y n)

/-- 10_state.md R25, R28 and R31: pc changes only by Jump, CallSubroutine and StopSubroutine (the fetch apart), the stack only by
CallSubroutine and StopSubroutine, and I only by SetIndex. -/
def Obligations.PcStackAndIndexChangeOnlyByTheirInstructions : Prop :=
  ∀ (i : Instr) (s t : State), exec i s = .next t →
    (t.pc ≠ s.pc → (∃ a, i = .jump a) ∨ (∃ a, i = .callSubroutine a) ∨ i = .stopSubroutine) ∧
    (t.stack ≠ s.stack → (∃ a, i = .callSubroutine a) ∨ i = .stopSubroutine) ∧
    (t.index ≠ s.index → ∃ a, i = .setIndex a)

/-! ## The host -/

/-- 70_reset_and_hazards.md R174: a successful load writes exactly its bytes to [0x200, 0x200+N), and touches no other byte, no register,
no pc, stack, pixel or timer. -/
def Obligations.LoadWritesTheProgramAreaOnly : Prop :=
  ∀ (src : List Byte) (s : State), s.mem.wf → 1 ≤ src.length → src.length ≤ 3584 → ∃ t, load src s = (.ok, t) ∧
    (∀ (k : Nat) (h : k < src.length), t.mem.read (0x200 + k) = src[k]) ∧
    (∀ a, a < 4096 → a < 0x200 ∨ 0x200 + src.length ≤ a → t.mem.read a = s.mem.read a) ∧
    t.pc = s.pc ∧ t.index = s.index ∧ sameRegisters s t ∧ t.stack = s.stack ∧ samePixels s t ∧ sameTimers s t

/-- 70_reset_and_hazards.md R172 and 10_state.md R42, by the spec's decisions D17 and D20: after a successful load the mode is Ready, but
a fault record stays. -/
def Obligations.LoadMakesReadyUnlessFaulted : Prop :=
  ∀ (src : List Byte) (s : State), 1 ≤ src.length → src.length ≤ 3584 → ∃ t, load src s = (.ok, t) ∧
    (s.alive = true → t.mode = .ready) ∧ (s.alive = false → t.mode = s.mode)

/-- 60_exceptions.md R141: a rejected load answers its load-time error and changes no state at all. -/
def Obligations.RejectedLoadChangesNothing : Prop :=
  ∀ (src : List Byte) (s : State),
    (src.length = 0 → load src s = (.err .emptyProgram, s)) ∧
    (3584 < src.length → load src s = (.err .programTooLarge, s))

/-- 60_exceptions.md R153, by the spec's decision D13 (saturation at 0): a decrement takes 1 off a timer that is not 0, leaves 0 at 0, and
changes nothing else. -/
def Obligations.TimerDecrementSaturates : Prop :=
  ∀ (k : Timer) (s : State), ((s.decrementTimer k).readTimer k).toNat = (s.readTimer k).toNat - 1 ∧
    (∀ j, j ≠ k → (s.decrementTimer k).readTimer j = s.readTimer j) ∧
    s.decrementTimer k = { s with delay := (s.decrementTimer k).delay, sound := (s.decrementTimer k).sound }

/-- 60_exceptions.md R154 (marked by the spec as derived): whatever the host does, timers at 0 stay at 0; so both are 0 in every state it
reaches from construction. -/
def Obligations.TimersStayZero : Prop :=
  (∀ (op : HostOp) (s t : State) (r : HostReply), hostOp op s = .next (r, t) → s.delay = 0 → s.sound = 0 →
    t.delay = 0 ∧ t.sound = 0) ∧
  (∀ s : State, HostReachable s → s.delay = 0 ∧ s.sound = 0)

/-- 70_reset_and_hazards.md R177, by the spec's decision D21: a host operation other than a cycle or construction leaves V0-VF, I, pc,
the stack and every pixel; one that is no load either leaves Memory; and none but a decrement changes a timer. -/
def Obligations.HostHasNoOtherMove : Prop :=
  ∀ (op : HostOp) (s t : State) (r : HostReply), op ≠ .cycle → op ≠ .construct → hostOp op s = .next (r, t) →
    sameRegisters s t ∧ t.index = s.index ∧ t.pc = s.pc ∧ t.stack = s.stack ∧ samePixels s t ∧
    ((∀ src, op ≠ .load src) → sameMemory s t ∧ t.mode = s.mode) ∧ ((∀ k, op ≠ .decrementTimer k) → sameTimers s t)

/-- 60_exceptions.md R155 and 70_reset_and_hazards.md R176: the host's reads answer the 64×32 grid of the accessor pixel(x, y), a timer's
value and the mode, and change nothing. -/
def Obligations.HostReadsChangeNothing : Prop :=
  ∀ s : State,
    (∃ grid, hostOp .readFrameBuffer s = .next (.pixels grid, s) ∧
      ∀ (x : Fin 64) (y : Fin 32), grid[y.val][x.val] = s.pixel x y) ∧
    (∀ k, hostOp (.readTimer k) s = .next (.timer (s.readTimer k), s)) ∧
    hostOp .readMode s = .next (.mode s.mode, s)
end

