-- ==== Sys2Proof/Laws/Decode.lean ====
section
/-! SUPPORT. The fields of a word and the encodings as numbers, and what the decoder reads from a word by its top nibble. -/

namespace Sys2Proof

/-! ## Fields as numbers -/

@[simp] theorem toNat_opNibble (w : Word) : (opNibble w).toNat = w.toNat / 4096 := by
  have := w.isLt
  simp only [opNibble, BitVec.extractLsb'_toNat, Nat.shiftRight_eq_div_pow]
  omega

@[simp] theorem val_fieldX (w : Word) : (fieldX w).val = w.toNat / 256 % 16 := by
  simp [fieldX, Nat.shiftRight_eq_div_pow]

@[simp] theorem val_fieldY (w : Word) : (fieldY w).val = w.toNat / 16 % 16 := by
  simp [fieldY, Nat.shiftRight_eq_div_pow]

@[simp] theorem val_fieldN (w : Word) : (fieldN w).val = w.toNat % 16 := by
  simp [fieldN, Nat.shiftRight_eq_div_pow]

@[simp] theorem toNat_fieldKk (w : Word) : (fieldKk w).toNat = w.toNat % 256 := by
  simp [fieldKk, BitVec.extractLsb'_toNat, Nat.shiftRight_eq_div_pow]

@[simp] theorem toNat_fieldNnn (w : Word) : (fieldNnn w).toNat = w.toNat % 4096 := by
  simp [fieldNnn, BitVec.extractLsb'_toNat, Nat.shiftRight_eq_div_pow]

@[simp] theorem toNat_highByte (w : Word) : (highByte w).toNat = w.toNat / 256 := by
  have := w.isLt
  simp only [highByte, BitVec.extractLsb'_toNat, Nat.shiftRight_eq_div_pow]
  omega

@[simp] theorem toNat_lowByte (w : Word) : (lowByte w).toNat = w.toNat % 256 := by
  simp [lowByte, BitVec.extractLsb'_toNat, Nat.shiftRight_eq_div_pow]

/-- A number below a power of two, joined below a multiple of it by OR, is their sum. -/
theorem mul_or_eq_add (a b i : Nat) (h : b < 2 ^ i) : a * 2 ^ i ||| b = a * 2 ^ i + b := by
  rw [Nat.mul_comm, Nat.two_pow_add_eq_or_of_lt h]

@[simp] theorem toNat_wordOfBytes (hi lo : Byte) : (wordOfBytes hi lo).toNat = hi.toNat * 256 + lo.toNat := by
  have h := mul_or_eq_add hi.toNat lo.toNat 8 lo.isLt
  simp only [wordOfBytes, BitVec.toNat_append, Nat.shiftLeft_eq]
  omega

/-- The word of a word's two bytes is the word. -/
@[simp] theorem wordOfBytes_high_low (w : Word) : wordOfBytes (highByte w) (lowByte w) = w := by
  apply BitVec.eq_of_toNat_eq
  simp
  omega

/-! ## Encodings as numbers (R80) -/

theorem toNat_or_addr {c : Word} {k : Nat} (hc : c.toNat = k * 4096) (a : Addr) :
    (c ||| a.setWidth 16).toNat = k * 4096 + a.toNat := by
  have h := mul_or_eq_add k a.toNat 12 a.isLt
  have ha := a.isLt
  rw [BitVec.toNat_or, BitVec.toNat_setWidth, Nat.mod_eq_of_lt (by omega), hc]
  exact h

theorem toNat_nibbleBits (x : Fin 16) : (nibbleBits x).toNat = x.val := by
  have := x.isLt
  simp only [nibbleBits, BitVec.toNat_ofNat]
  omega

theorem toNat_op_or_x {c : Word} {k : Nat} (hc : c.toNat = k * 4096) (x : Fin 16) :
    (c ||| nibbleBits x <<< 8).toNat = k * 4096 + x.val * 256 := by
  have hx := x.isLt
  have h := mul_or_eq_add k (x.val * 256) 12 (by omega)
  have hs : (nibbleBits x <<< 8 : Word).toNat = x.val * 256 := by
    simp only [BitVec.toNat_shiftLeft, toNat_nibbleBits, Nat.shiftLeft_eq]
    omega
  rw [BitVec.toNat_or, hs, hc]
  exact h

theorem toNat_or_x_kk {c : Word} {k : Nat} (hc : c.toNat = k * 4096) (x : Fin 16) (kk : Byte) :
    (c ||| nibbleBits x <<< 8 ||| kk.setWidth 16).toNat =
      k * 4096 + x.val * 256 + kk.toNat := by
  have h := mul_or_eq_add (k * 16 + x.val) kk.toNat 8 kk.isLt
  have hkk := kk.isLt
  rw [BitVec.toNat_or, toNat_op_or_x hc x, BitVec.toNat_setWidth, Nat.mod_eq_of_lt (by omega)]
  have e : k * 4096 + x.val * 256 = (k * 16 + x.val) * 2 ^ 8 := by omega
  rw [e, h]

theorem toNat_or_x_y_n {c : Word} {k : Nat} (hc : c.toNat = k * 4096) (x y n : Fin 16) :
    (c ||| nibbleBits x <<< 8 ||| nibbleBits y <<< 4 ||| nibbleBits n).toNat =
      k * 4096 + x.val * 256 + y.val * 16 + n.val := by
  have hy := y.isLt
  have hn := n.isLt
  have hx := x.isLt
  have h1 := mul_or_eq_add (k * 16 + x.val) (y.val * 16) 8 (by omega)
  have h2 := mul_or_eq_add (k * 256 + x.val * 16 + y.val) n.val 4 (by omega)
  have hs : (nibbleBits y <<< 4 : Word).toNat = y.val * 16 := by
    simp only [BitVec.toNat_shiftLeft, toNat_nibbleBits, Nat.shiftLeft_eq]
    omega
  have e1 : k * 4096 + x.val * 256 = (k * 16 + x.val) * 2 ^ 8 := by omega
  rw [BitVec.toNat_or, BitVec.toNat_or, toNat_op_or_x hc x, hs, toNat_nibbleBits, e1, h1]
  have e2 : (k * 16 + x.val) * 2 ^ 8 + y.val * 16 = (k * 256 + x.val * 16 + y.val) * 2 ^ 4 := by ring
  rw [e2, h2]

@[simp] theorem toNat_encode_jump (a : Addr) : (encode (.jump a)).toNat = 0x1000 + a.toNat := toNat_or_addr (c := BitVec.ofNat 16 (1 * 4096)) (k := 1) rfl a

@[simp] theorem toNat_encode_callSubroutine (a : Addr) : (encode (.callSubroutine a)).toNat = 0x2000 + a.toNat :=
  toNat_or_addr (c := BitVec.ofNat 16 (2 * 4096)) (k := 2) rfl a

@[simp] theorem toNat_encode_setIndex (a : Addr) : (encode (.setIndex a)).toNat = 0xA000 + a.toNat :=
  toNat_or_addr (c := BitVec.ofNat 16 (10 * 4096)) (k := 10) rfl a

@[simp] theorem toNat_encode_setRegister (x : RegNum) (k : Byte) :
    (encode (.setRegister x k)).toNat = 0x6000 + x.val * 256 + k.toNat := toNat_or_x_kk (c := BitVec.ofNat 16 (6 * 4096)) (k := 6) rfl x k

@[simp] theorem toNat_encode_addToRegister (x : RegNum) (k : Byte) :
    (encode (.addToRegister x k)).toNat = 0x7000 + x.val * 256 + k.toNat := toNat_or_x_kk (c := BitVec.ofNat 16 (7 * 4096)) (k := 7) rfl x k

@[simp] theorem toNat_encode_display (x y : RegNum) (n : RowCount) :
    (encode (.display x y n)).toNat = 0xD000 + x.val * 256 + y.val * 16 + n.val := toNat_or_x_y_n (c := BitVec.ofNat 16 (13 * 4096)) (k := 13) rfl x y n

/-! ## Decoding by the top nibble (R74) -/

theorem ne_of_toNat_ge {w : Word} (h : 0x1000 ≤ w.toNat) : w ≠ 0x00E0 ∧ w ≠ 0x00EE := by
  constructor <;> rintro rfl <;> simp at h

/-- A word outside the two literals is decoded by its top nibble (R73). -/
theorem decode_of_not_literal {w : Word} (h1 : w ≠ 0x00E0) (h2 : w ≠ 0x00EE) :
    decode w = match w.toNat / 4096 with
      | 0x1 => .jump (fieldNnn w)
      | 0x2 => .callSubroutine (fieldNnn w)
      | 0x6 => .setRegister (fieldX w) (fieldKk w)
      | 0x7 => .addToRegister (fieldX w) (fieldKk w)
      | 0xA => .setIndex (fieldNnn w)
      | 0xD => .display (fieldX w) (fieldY w) (fieldN w)
      | _ => .unknownInstruction w := by
  rw [decode, if_neg h1, if_neg h2, toNat_opNibble]
  all_goals rfl

theorem decode_jump {w : Word} (h : w.toNat / 4096 = 1) : decode w = .jump (fieldNnn w) := by
  obtain ⟨h1, h2⟩ := ne_of_toNat_ge (w := w) (by omega)
  rw [decode_of_not_literal h1 h2, h]
  rfl

theorem decode_callSubroutine {w : Word} (h : w.toNat / 4096 = 2) : decode w = .callSubroutine (fieldNnn w) := by
  obtain ⟨h1, h2⟩ := ne_of_toNat_ge (w := w) (by omega)
  rw [decode_of_not_literal h1 h2, h]
  rfl

theorem decode_setRegister {w : Word} (h : w.toNat / 4096 = 6) : decode w = .setRegister (fieldX w) (fieldKk w) := by
  obtain ⟨h1, h2⟩ := ne_of_toNat_ge (w := w) (by omega)
  rw [decode_of_not_literal h1 h2, h]
  rfl

theorem decode_addToRegister {w : Word} (h : w.toNat / 4096 = 7) : decode w = .addToRegister (fieldX w) (fieldKk w) := by
  obtain ⟨h1, h2⟩ := ne_of_toNat_ge (w := w) (by omega)
  rw [decode_of_not_literal h1 h2, h]
  rfl

theorem decode_setIndex {w : Word} (h : w.toNat / 4096 = 10) : decode w = .setIndex (fieldNnn w) := by
  obtain ⟨h1, h2⟩ := ne_of_toNat_ge (w := w) (by omega)
  rw [decode_of_not_literal h1 h2, h]
  rfl

theorem decode_display {w : Word} (h : w.toNat / 4096 = 13) : decode w = .display (fieldX w) (fieldY w) (fieldN w) := by
  obtain ⟨h1, h2⟩ := ne_of_toNat_ge (w := w) (by omega)
  rw [decode_of_not_literal h1 h2, h]
  rfl

/-- The unknown space as numbers: no literal, and a top nibble that names no family (R78). -/
theorem inUnknownSpace_iff (w : Word) :
    inUnknownSpace w = true ↔ w.toNat ≠ 0xE0 ∧ w.toNat ≠ 0xEE ∧ w.toNat / 4096 ≠ 1 ∧ w.toNat / 4096 ≠ 2 ∧
      w.toNat / 4096 ≠ 6 ∧ w.toNat / 4096 ≠ 7 ∧ w.toNat / 4096 ≠ 10 ∧ w.toNat / 4096 ≠ 13 := by
  have := w.isLt
  simp only [inUnknownSpace, Bool.or_eq_true, Bool.and_eq_true, decide_eq_true_eq, bne_iff_ne]
  omega

/-- Everything the decoder can answer, with what the word then is (R73). -/
theorem decode_cases (w : Word) :
    (w = 0x00E0 ∧ decode w = .clearScreen) ∨ (w = 0x00EE ∧ decode w = .stopSubroutine) ∨
    (w.toNat / 4096 = 1 ∧ decode w = .jump (fieldNnn w)) ∨
    (w.toNat / 4096 = 2 ∧ decode w = .callSubroutine (fieldNnn w)) ∨
    (w.toNat / 4096 = 6 ∧ decode w = .setRegister (fieldX w) (fieldKk w)) ∨
    (w.toNat / 4096 = 7 ∧ decode w = .addToRegister (fieldX w) (fieldKk w)) ∨
    (w.toNat / 4096 = 10 ∧ decode w = .setIndex (fieldNnn w)) ∨
    (w.toNat / 4096 = 13 ∧ decode w = .display (fieldX w) (fieldY w) (fieldN w)) ∨
    (inUnknownSpace w = true ∧ decode w = .unknownInstruction w) := by
  by_cases h1 : w = 0x00E0
  · exact .inl ⟨h1, by rw [h1]; decide⟩
  by_cases h2 : w = 0x00EE
  · exact .inr (.inl ⟨h2, by rw [h2]; decide⟩)
  have n1 : w.toNat ≠ 0xE0 := fun h => h1 (BitVec.eq_of_toNat_eq (by simpa using h))
  have n2 : w.toNat ≠ 0xEE := fun h => h2 (BitVec.eq_of_toNat_eq (by simpa using h))
  rw [inUnknownSpace_iff, decode_of_not_literal h1 h2]
  split <;> simp_all

/-- The top nibble kept by the mask 0xF000 of R75, as a number. -/
theorem toNat_and_topMask (w : Word) : (w &&& (0xF000 : Word)).toNat = w.toNat / 4096 * 4096 := by
  have h : w &&& (0xF000 : Word) = (w >>> 12) <<< 12 := by
    ext i hi
    interval_cases i <;> simp
  have := w.isLt
  rw [h]
  simp only [BitVec.toNat_shiftLeft, BitVec.toNat_ushiftRight, Nat.shiftLeft_eq, Nat.shiftRight_eq_div_pow]
  omega

end Sys2Proof
end

