-- ==== Sys2Proof/Laws/State.lean ====
section
/-! SUPPORT. One lemma per field per update of the state, each true by rfl, and what reading a register after each update gives. -/

namespace Sys2Proof.Machine

variable (s : State)

/-! ## `writeV` -/

@[simp] theorem State.writeV_mem (x : RegNum) (b : Byte) : (s.writeV x b).mem = s.mem := rfl
@[simp] theorem State.writeV_v (x : RegNum) (b : Byte) : (s.writeV x b).v = s.v.set x.val b := rfl
@[simp] theorem State.writeV_index (x : RegNum) (b : Byte) : (s.writeV x b).index = s.index := rfl
@[simp] theorem State.writeV_pc (x : RegNum) (b : Byte) : (s.writeV x b).pc = s.pc := rfl
@[simp] theorem State.writeV_stack (x : RegNum) (b : Byte) : (s.writeV x b).stack = s.stack := rfl
@[simp] theorem State.writeV_fb (x : RegNum) (b : Byte) : (s.writeV x b).fb = s.fb := rfl
@[simp] theorem State.writeV_delay (x : RegNum) (b : Byte) : (s.writeV x b).delay = s.delay := rfl
@[simp] theorem State.writeV_sound (x : RegNum) (b : Byte) : (s.writeV x b).sound = s.sound := rfl
@[simp] theorem State.writeV_mode (x : RegNum) (b : Byte) : (s.writeV x b).mode = s.mode := rfl

/-! ## `setIndex` -/

@[simp] theorem State.setIndex_mem (w : Word) : (s.setIndex w).mem = s.mem := rfl
@[simp] theorem State.setIndex_v (w : Word) : (s.setIndex w).v = s.v := rfl
@[simp] theorem State.setIndex_index (w : Word) : (s.setIndex w).index = w := rfl
@[simp] theorem State.setIndex_pc (w : Word) : (s.setIndex w).pc = s.pc := rfl
@[simp] theorem State.setIndex_stack (w : Word) : (s.setIndex w).stack = s.stack := rfl
@[simp] theorem State.setIndex_fb (w : Word) : (s.setIndex w).fb = s.fb := rfl
@[simp] theorem State.setIndex_delay (w : Word) : (s.setIndex w).delay = s.delay := rfl
@[simp] theorem State.setIndex_sound (w : Word) : (s.setIndex w).sound = s.sound := rfl
@[simp] theorem State.setIndex_mode (w : Word) : (s.setIndex w).mode = s.mode := rfl

/-! ## `setPc` -/

@[simp] theorem State.setPc_mem (w : Word) : (s.setPc w).mem = s.mem := rfl
@[simp] theorem State.setPc_v (w : Word) : (s.setPc w).v = s.v := rfl
@[simp] theorem State.setPc_index (w : Word) : (s.setPc w).index = s.index := rfl
@[simp] theorem State.setPc_pc (w : Word) : (s.setPc w).pc = w := rfl
@[simp] theorem State.setPc_stack (w : Word) : (s.setPc w).stack = s.stack := rfl
@[simp] theorem State.setPc_fb (w : Word) : (s.setPc w).fb = s.fb := rfl
@[simp] theorem State.setPc_delay (w : Word) : (s.setPc w).delay = s.delay := rfl
@[simp] theorem State.setPc_sound (w : Word) : (s.setPc w).sound = s.sound := rfl
@[simp] theorem State.setPc_mode (w : Word) : (s.setPc w).mode = s.mode := rfl

/-! ## `push` -/

@[simp] theorem State.push_mem (w : Word) : (s.push w).mem = s.mem := rfl
@[simp] theorem State.push_v (w : Word) : (s.push w).v = s.v := rfl
@[simp] theorem State.push_index (w : Word) : (s.push w).index = s.index := rfl
@[simp] theorem State.push_pc (w : Word) : (s.push w).pc = s.pc := rfl
@[simp] theorem State.push_stack (w : Word) : (s.push w).stack = w :: s.stack := rfl
@[simp] theorem State.push_fb (w : Word) : (s.push w).fb = s.fb := rfl
@[simp] theorem State.push_delay (w : Word) : (s.push w).delay = s.delay := rfl
@[simp] theorem State.push_sound (w : Word) : (s.push w).sound = s.sound := rfl
@[simp] theorem State.push_mode (w : Word) : (s.push w).mode = s.mode := rfl

/-! ## `setFb` -/

@[simp] theorem State.setFb_mem (fb : FrameBuffer) : (s.setFb fb).mem = s.mem := rfl
@[simp] theorem State.setFb_v (fb : FrameBuffer) : (s.setFb fb).v = s.v := rfl
@[simp] theorem State.setFb_index (fb : FrameBuffer) : (s.setFb fb).index = s.index := rfl
@[simp] theorem State.setFb_pc (fb : FrameBuffer) : (s.setFb fb).pc = s.pc := rfl
@[simp] theorem State.setFb_stack (fb : FrameBuffer) : (s.setFb fb).stack = s.stack := rfl
@[simp] theorem State.setFb_fb (fb : FrameBuffer) : (s.setFb fb).fb = fb := rfl
@[simp] theorem State.setFb_delay (fb : FrameBuffer) : (s.setFb fb).delay = s.delay := rfl
@[simp] theorem State.setFb_sound (fb : FrameBuffer) : (s.setFb fb).sound = s.sound := rfl
@[simp] theorem State.setFb_mode (fb : FrameBuffer) : (s.setFb fb).mode = s.mode := rfl

/-! ## `setMode` -/

@[simp] theorem State.setMode_mem (m : Mode) : (s.setMode m).mem = s.mem := rfl
@[simp] theorem State.setMode_v (m : Mode) : (s.setMode m).v = s.v := rfl
@[simp] theorem State.setMode_index (m : Mode) : (s.setMode m).index = s.index := rfl
@[simp] theorem State.setMode_pc (m : Mode) : (s.setMode m).pc = s.pc := rfl
@[simp] theorem State.setMode_stack (m : Mode) : (s.setMode m).stack = s.stack := rfl
@[simp] theorem State.setMode_fb (m : Mode) : (s.setMode m).fb = s.fb := rfl
@[simp] theorem State.setMode_delay (m : Mode) : (s.setMode m).delay = s.delay := rfl
@[simp] theorem State.setMode_sound (m : Mode) : (s.setMode m).sound = s.sound := rfl
@[simp] theorem State.setMode_mode (m : Mode) : (s.setMode m).mode = m := rfl

/-! ## `raise` -/

@[simp] theorem State.raise_mem (e : Error) : (s.raise e).mem = s.mem := rfl
@[simp] theorem State.raise_v (e : Error) : (s.raise e).v = s.v := rfl
@[simp] theorem State.raise_index (e : Error) : (s.raise e).index = s.index := rfl
@[simp] theorem State.raise_pc (e : Error) : (s.raise e).pc = s.pc := rfl
@[simp] theorem State.raise_stack (e : Error) : (s.raise e).stack = s.stack := rfl
@[simp] theorem State.raise_fb (e : Error) : (s.raise e).fb = s.fb := rfl
@[simp] theorem State.raise_delay (e : Error) : (s.raise e).delay = s.delay := rfl
@[simp] theorem State.raise_sound (e : Error) : (s.raise e).sound = s.sound := rfl
@[simp] theorem State.raise_mode (e : Error) : (s.raise e).mode = .faulted e := rfl

/-! ## `finishCycle` -/

@[simp] theorem State.finishCycle_mem : (s.finishCycle).mem = s.mem := rfl
@[simp] theorem State.finishCycle_v : (s.finishCycle).v = s.v := rfl
@[simp] theorem State.finishCycle_index : (s.finishCycle).index = s.index := rfl
@[simp] theorem State.finishCycle_pc : (s.finishCycle).pc = s.pc := rfl
@[simp] theorem State.finishCycle_stack : (s.finishCycle).stack = s.stack := rfl
@[simp] theorem State.finishCycle_fb : (s.finishCycle).fb = s.fb := rfl
@[simp] theorem State.finishCycle_delay : (s.finishCycle).delay = s.delay := rfl
@[simp] theorem State.finishCycle_sound : (s.finishCycle).sound = s.sound := rfl
@[simp] theorem State.finishCycle_mode : (s.finishCycle).mode = s.mode.afterCycle := rfl

/-! ## `setCollision` -/

@[simp] theorem State.setCollision_mem (hit : Bool) : (s.setCollision hit).mem = s.mem := rfl
@[simp] theorem State.setCollision_v (hit : Bool) : (s.setCollision hit).v = s.v.set 15 (flagByte hit) := rfl
@[simp] theorem State.setCollision_index (hit : Bool) : (s.setCollision hit).index = s.index := rfl
@[simp] theorem State.setCollision_pc (hit : Bool) : (s.setCollision hit).pc = s.pc := rfl
@[simp] theorem State.setCollision_stack (hit : Bool) : (s.setCollision hit).stack = s.stack := rfl
@[simp] theorem State.setCollision_fb (hit : Bool) : (s.setCollision hit).fb = s.fb := rfl
@[simp] theorem State.setCollision_delay (hit : Bool) : (s.setCollision hit).delay = s.delay := rfl
@[simp] theorem State.setCollision_sound (hit : Bool) : (s.setCollision hit).sound = s.sound := rfl
@[simp] theorem State.setCollision_mode (hit : Bool) : (s.setCollision hit).mode = s.mode := rfl

/-! ## `copyProgram` -/

@[simp] theorem State.copyProgram_mem (src : List Byte) : (s.copyProgram src).mem = s.mem.writeBytes progBase src := rfl
@[simp] theorem State.copyProgram_v (src : List Byte) : (s.copyProgram src).v = s.v := rfl
@[simp] theorem State.copyProgram_index (src : List Byte) : (s.copyProgram src).index = s.index := rfl
@[simp] theorem State.copyProgram_pc (src : List Byte) : (s.copyProgram src).pc = s.pc := rfl
@[simp] theorem State.copyProgram_stack (src : List Byte) : (s.copyProgram src).stack = s.stack := rfl
@[simp] theorem State.copyProgram_fb (src : List Byte) : (s.copyProgram src).fb = s.fb := rfl
@[simp] theorem State.copyProgram_delay (src : List Byte) : (s.copyProgram src).delay = s.delay := rfl
@[simp] theorem State.copyProgram_sound (src : List Byte) : (s.copyProgram src).sound = s.sound := rfl
@[simp] theorem State.copyProgram_mode (src : List Byte) : (s.copyProgram src).mode = s.mode.afterLoad := rfl

/-! ## Register reads -/

/-- Every register after a register write: the destination holds the byte, the others what they held. -/
theorem State.readV_writeV (x y : RegNum) (b : Byte) : (s.writeV x b).readV y = if x = y then b else s.readV y := by
  simp [State.readV, State.writeV, Vector.getElem_set, Fin.ext_iff]

@[simp] theorem State.readV_writeV_same (x : RegNum) (b : Byte) : (s.writeV x b).readV x = b := by
  simp [State.readV_writeV]

theorem State.readV_writeV_other {x y : RegNum} (h : x ≠ y) (b : Byte) : (s.writeV x b).readV y = s.readV y := by
  simp [State.readV_writeV, h]

/-- Every register after the flag write: register 15 holds the flag, the others what they held. -/
theorem State.readV_setCollision (y : RegNum) (hit : Bool) :
    (s.setCollision hit).readV y = if flagReg = y then flagByte hit else s.readV y := by
  simp [State.setCollision, State.readV_writeV]

@[simp] theorem State.readV_setIndex (w : Word) (x : RegNum) : (s.setIndex w).readV x = s.readV x := rfl
@[simp] theorem State.readV_setPc (w : Word) (x : RegNum) : (s.setPc w).readV x = s.readV x := rfl
@[simp] theorem State.readV_push (w : Word) (x : RegNum) : (s.push w).readV x = s.readV x := rfl
@[simp] theorem State.readV_setFb (fb : FrameBuffer) (x : RegNum) : (s.setFb fb).readV x = s.readV x := rfl
@[simp] theorem State.readV_setMode (m : Mode) (x : RegNum) : (s.setMode m).readV x = s.readV x := rfl
@[simp] theorem State.readV_raise (e : Error) (x : RegNum) : (s.raise e).readV x = s.readV x := rfl
@[simp] theorem State.readV_finishCycle (x : RegNum) : (s.finishCycle).readV x = s.readV x := rfl

/-! ## Depth and pixels -/

@[simp] theorem State.depth_push (w : Word) : (s.push w).depth = s.depth + 1 := rfl
@[simp] theorem State.depth_setPc (w : Word) : (s.setPc w).depth = s.depth := rfl
@[simp] theorem State.depth_raise (e : Error) : (s.raise e).depth = s.depth := rfl
@[simp] theorem State.pixel_setCollision (hit : Bool) (x : Fin 64) (y : Fin 32) :
    (s.setCollision hit).pixel x y = s.pixel x y := rfl
@[simp] theorem State.pixel_setFb (fb : FrameBuffer) (x : Fin 64) (y : Fin 32) : (s.setFb fb).pixel x y = fb.pixel x y := rfl

/-! ## The modes -/

@[simp] theorem Mode.afterCycle_faulted (e : Error) : (Mode.faulted e).afterCycle = .faulted e := rfl

/-- A cycle never leaves the mode Ready (10_state.md R42). -/
theorem Mode.afterCycle_ne_ready (m : Mode) : m.afterCycle ≠ .ready := by cases m <;> simp [Mode.afterCycle]

@[simp] theorem Mode.afterCycle_afterCycle (m : Mode) : m.afterCycle.afterCycle = m.afterCycle := by cases m <;> rfl

/-- The end of a cycle keeps what the mode records. -/
@[simp] theorem Mode.recordsExecutionError_afterCycle (m : Mode) :
    m.afterCycle.recordsExecutionError = m.recordsExecutionError := by cases m <;> rfl

@[simp] theorem Mode.recordsExecutionError_afterLoad (m : Mode) :
    m.afterLoad.recordsExecutionError = m.recordsExecutionError := by cases m <;> rfl

/-! ## The stack -/

/-- What `Pop()` answers: the most recently pushed entry, and the state without it. -/
theorem State.pop_eq_some {s t : State} {w : Word} (h : s.pop = some (w, t)) :
    ∃ rest, s.stack = w :: rest ∧ t = { s with stack := rest } := by
  cases hs : s.stack with
  | nil => simp [State.pop, hs] at h
  | cons a rest =>
    simp only [State.pop, hs, Option.some.injEq, Prod.mk.injEq] at h
    exact ⟨rest, by rw [h.1], h.2.symm⟩

/-- `Pop()` answers nothing exactly on an empty stack. -/
theorem State.pop_eq_none {s : State} : s.pop = none ↔ s.stack = [] := by
  cases hs : s.stack <;> simp [State.pop, hs]

/-- What was pushed is popped (00_scope.md R10). -/
theorem State.pop_push (w : Word) : (s.push w).pop = some (w, s) := rfl

end Sys2Proof.Machine
end

