-- ==== Sys2Proof/Laws/Ops.lean ====
section
/-! SUPPORT. What each shared operation does: the parameters' values, the fetch, the numbers an address becomes, and the modes a
cycle ends in. -/

namespace Sys2Proof.Machine

/-! ## The parameters' values -/

@[simp] theorem config_stackCapacity : config.stackCapacity = 256 := rfl
@[simp] theorem config_unknownPolicy : config.unknownPolicy = .hardFail := rfl
@[simp] theorem config_reloadPolicy : config.reloadPolicy = .keep := rfl
@[simp] theorem config_fetchWrap : config.fetchWrap = .wrap := rfl
@[simp] theorem config_resetPc : config.resetPc = 0 := rfl

/-- Under the policy `keep` nothing happens before a load copies. -/
@[simp] theorem State.beforeLoad_eq (s : State) : s.beforeLoad = s := rfl

/-! ## Addresses as numbers -/

@[simp] theorem toNat_zextAddr (nnn : Addr) : (zextAddr nnn).toNat = nnn.toNat := by
  have := nnn.isLt
  simp only [zextAddr, BitVec.toNat_setWidth]
  omega

theorem zextAddr_lt (nnn : Addr) : (zextAddr nnn).toNat < memSize := by
  rw [toNat_zextAddr]
  exact nnn.isLt

@[simp] theorem toNat_advancePc (pc : Word) : (advancePc pc).toNat = (pc.toNat + 2) % 4096 := by
  simp only [advancePc, BitVec.toNat_ofNat, memSize]
  omega

theorem advancePc_lt (pc : Word) : (advancePc pc).toNat < memSize := by
  rw [toNat_advancePc, memSize]
  omega

/-! ## The fetch (40_cycle.md R91) -/

/-- Inside Memory the fetch never fails: it answers the word at pc and changes pc alone. -/
theorem State.fetch_ok {s : State} (h : s.pc.toNat < memSize) :
    s.fetch = .ok (s.wordAtPc, s.setPc (advancePc s.pc)) := by
  simp [State.fetch, h]

/-- Outside Memory it stops by name. -/
theorem State.fetch_error {s : State} (h : ¬ s.pc.toNat < memSize) : s.fetch = .error (.noSuchAddress s.pc.toNat) := by
  simp [State.fetch, h]

/-! ## The bytes of the fetched word -/

/-- The word at pc depends on Memory and pc alone. -/
theorem State.wordAtPc_congr {s t : State} (hm : s.mem = t.mem) (hp : s.pc = t.pc) : s.wordAtPc = t.wordAtPc := by
  simp [State.wordAtPc, hm, hp]

end Sys2Proof.Machine
end

