-- ==== Sys2Proof/Laws/Exec.lean ====
section
/-! SUPPORT. Everything an instruction can do, said once: the inversion lemma of `exec`. -/

namespace Sys2Proof.Machine

/-- The rows a Display reads depend on Memory and I alone. -/
@[simp] theorem State.spriteRows_setPc (s : State) (w : Word) (n : RowCount) : (s.setPc w).spriteRows n = s.spriteRows n := rfl

/-- The state after a Display in bounds (43_display.md R121). -/
abbrev State.drawn (s : State) (x y : RegNum) (n : RowCount) : State :=
  let bits := placeSprite (originX (s.readV x)) (originY (s.readV y)) (s.spriteRows n)
  (s.setFb (s.fb.drawBits bits)).setCollision (s.fb.collides bits)

/-- Everything an instruction that answers a next state can have done, with the condition under which it did so. -/
theorem exec_next_cases {i : Instr} {s t : State} (h : exec i s = .next t) :
    (i = .clearScreen ∧ t = s.setFb FrameBuffer.clear) ∨
    (i = .stopSubroutine ∧ s.stack = [] ∧ t = s.raise .stackUnderflow) ∨
    (i = .stopSubroutine ∧ ∃ ret rest, s.stack = ret :: rest ∧ t = { s with stack := rest, pc := ret }) ∨
    (∃ nnn, i = .jump nnn ∧ t = s.setPc (zextAddr nnn)) ∨
    (∃ nnn, i = .callSubroutine nnn ∧ s.depth = 256 ∧ t = s.raise (.stackOverflow s.pc)) ∨
    (∃ nnn, i = .callSubroutine nnn ∧ s.depth ≠ 256 ∧ t = (s.push s.pc).setPc (zextAddr nnn)) ∨
    (∃ x kk, i = .setRegister x kk ∧ t = s.writeV x kk) ∨
    (∃ x kk, i = .addToRegister x kk ∧ t = s.writeV x (BitVec.ofNat 8 (((s.readV x).toNat + kk.toNat) % 256))) ∨
    (∃ nnn, i = .setIndex nnn ∧ t = s.setIndex (zextAddr nnn)) ∨
    (∃ x y n, i = .display x y n ∧ s.index.toNat + n.val ≤ 4096 ∧ t = s.drawn x y n) ∨
    (∃ x y n, i = .display x y n ∧ 4096 < s.index.toNat + n.val ∧ t = s.raise (.memoryOutOfBounds s.index n)) ∨
    (∃ raw, i = .unknownInstruction raw ∧ t = s.raise (.unsupportedOpcode raw)) := by
  cases i with
  | clearScreen => simpa [exec, execClearScreen, eq_comm] using h
  | stopSubroutine =>
    cases hs : s.stack with
    | nil => simpa [exec, execStopSubroutine, State.pop, hs, eq_comm] using h
    | cons ret rest => simpa [exec, execStopSubroutine, State.pop, hs, State.setPc, eq_comm] using h
  | jump nnn => simpa [exec, execJump, eq_comm] using h
  | callSubroutine nnn => by_cases hd : s.depth = 256 <;> simpa [exec, execCallSubroutine, hd, eq_comm] using h
  | setRegister x kk => simpa [exec, execSetRegister, eq_comm] using h
  | addToRegister x kk => simpa [exec, execAddToRegister, eq_comm] using h
  | setIndex nnn => simpa [exec, execSetIndex, eq_comm] using h
  | display x y n =>
    by_cases hb : s.index.toNat + n.val ≤ 4096
    · simpa [exec, execDisplay, spriteInMemory, hb, Nat.not_lt.mpr hb, eq_comm] using h
    · simpa [exec, execDisplay, spriteInMemory, hb, Nat.lt_of_not_le hb, eq_comm] using h
  | unknownInstruction raw => simpa [exec, execUnknownInstruction, eq_comm] using h

end Sys2Proof.Machine
end

