-- ==== Sys2Proof/Laws/Memory.lean ====
section
/-! SUPPORT. What the memory operations do: a read after a write, the canonical form kept, and equal memories being equal data. -/

namespace Sys2Proof.Machine

/-! ## Lists that start beyond an address -/

/-- Addresses all above `a` leave `a` at its reset contents. -/
theorem Memory.read_of_above {m : Memory} {a : Nat} (h : ∀ c ∈ m, a < c.1) : m.read a = resetByte a := by
  induction m with
  | nil => rfl
  | cons c m ih =>
    have hc := h c (by simp)
    have hne : c.1 ≠ a := by omega
    simp only [Memory.read, hne, if_false]
    exact ih fun d hd => h d (by simp [hd])

theorem Memory.mem_cellFor {a : Nat} {v : Byte} {c : Host.Cell} (h : c ∈ cellFor a v) : c = (a, v) ∧ v ≠ resetByte a := by
  unfold cellFor at h
  split at h
  · simp at h
  · exact ⟨by simpa using h, ‹_›⟩

theorem Memory.read_cellFor_append {m : Memory} {a : Nat} {v : Byte} (h : ∀ c ∈ m, a < c.1) (b : Nat) :
    Memory.read (cellFor a v ++ m) b = if a = b then v else m.read b := by
  unfold cellFor
  split
  · rename_i hv
    split
    · rename_i hab
      subst hab
      simp [hv, Memory.read_of_above h]
    · rfl
  · simp [Memory.read]

/-! ## Reading after a write -/

/-- Every byte after a write of one byte, in rising memories: the address holds the byte, the others what they held. -/
theorem Memory.read_write {m : Memory} (hm : m.Pairwise (fun c d => c.1 < d.1)) (a : Nat) (v : Byte) (b : Nat) :
    (m.write a v).read b = if a = b then v else m.read b := by
  induction m with
  | nil => simpa [Memory.write] using Memory.read_cellFor_append (m := []) (a := a) (v := v) (by simp) b
  | cons c m ih =>
    obtain ⟨hc, hm'⟩ := List.pairwise_cons.mp hm
    unfold Memory.write
    split
    · rename_i hlt
      exact Memory.read_cellFor_append (by intro d hd; rcases List.mem_cons.mp hd with rfl | hd
                                           · exact hlt
                                           · exact lt_trans hlt (hc d hd)) b
    · split
      · rename_i heq
        subst heq
        rw [Memory.read_cellFor_append hc b]
        simp only [Memory.read]
        split <;> rfl
      · rename_i hne
        simp only [Memory.read, ih hm']
        by_cases hcb : c.1 = b
        · have : a ≠ b := by omega
          simp [hcb, this]
        · simp [hcb]

/-! ## The canonical form -/

theorem Memory.wf_nil : Memory.wf [] := ⟨List.Pairwise.nil, by simp⟩

/-- The addresses of a written memory are those of the memory and the one written. -/
theorem Memory.mem_write {m : Memory} {a : Nat} {v : Byte} {c : Host.Cell} (h : c ∈ m.write a v) :
    c ∈ m ∨ (c = (a, v) ∧ v ≠ resetByte a) := by
  induction m with
  | nil => exact .inr (Memory.mem_cellFor h)
  | cons d m ih =>
    unfold Memory.write at h
    split at h
    · rcases List.mem_append.mp h with h | h
      · exact .inr (Memory.mem_cellFor h)
      · exact .inl h
    · split at h
      · rcases List.mem_append.mp h with h | h
        · exact .inr (Memory.mem_cellFor h)
        · exact .inl (by simp [h])
      · rcases List.mem_cons.mp h with h | h
        · exact .inl (by simp [h])
        · exact (ih h).imp (by simp +contextual) id

theorem Memory.pairwise_cellFor_append {m : Memory} {a : Nat} {v : Byte} (hm : m.Pairwise (fun c d => c.1 < d.1))
    (h : ∀ c ∈ m, a < c.1) : (cellFor a v ++ m).Pairwise (fun c d => c.1 < d.1) := by
  unfold cellFor
  split
  · simpa using hm
  · simpa using ⟨by simpa using h, hm⟩

theorem Memory.pairwise_write {m : Memory} (hm : m.Pairwise (fun c d => c.1 < d.1)) (a : Nat) (v : Byte) :
    (m.write a v).Pairwise (fun c d => c.1 < d.1) := by
  induction m with
  | nil => simpa [Memory.write] using Memory.pairwise_cellFor_append (m := []) (a := a) (v := v) hm (by simp)
  | cons c m ih =>
    obtain ⟨hc, hm'⟩ := List.pairwise_cons.mp hm
    unfold Memory.write
    split
    · rename_i hlt
      refine Memory.pairwise_cellFor_append hm fun d hd => ?_
      rcases List.mem_cons.mp hd with rfl | hd
      · exact hlt
      · exact lt_trans hlt (hc d hd)
    · split
      · rename_i heq
        subst heq
        exact Memory.pairwise_cellFor_append hm' hc
      · refine List.pairwise_cons.mpr ⟨fun d hd => ?_, ih hm'⟩
        rcases Memory.mem_write hd with hd | ⟨rfl, -⟩
        · exact hc d hd
        · simp only; omega

/-- A write inside Memory keeps the canonical form. -/
theorem Memory.write_wf {m : Memory} (hm : m.wf) {a : Nat} (ha : a < memSize) (v : Byte) : (m.write a v).wf := by
  refine ⟨Memory.pairwise_write hm.1 a v, fun c hc => ?_⟩
  rcases Memory.mem_write hc with hc | ⟨rfl, hv⟩
  · exact hm.2 c hc
  · exact ⟨ha, hv⟩

/-! ## Writing and reading several bytes -/

theorem Memory.pairwise_writeBytes {m : Memory} (hm : m.Pairwise (fun c d => c.1 < d.1)) (a : Nat) (bs : List Byte) :
    (m.writeBytes a bs).Pairwise (fun c d => c.1 < d.1) := by
  induction bs generalizing m a with
  | nil => exact hm
  | cons b bs ih => exact ih (Memory.pairwise_write hm a b) (a + 1)

/-- Writing bytes that end inside Memory keeps the canonical form. -/
theorem Memory.writeBytes_wf {m : Memory} (hm : m.wf) {a : Nat} {bs : List Byte} (h : a + bs.length ≤ memSize) :
    (m.writeBytes a bs).wf := by
  induction bs generalizing m a with
  | nil => exact hm
  | cons b bs ih =>
    simp only [List.length_cons] at h
    exact ih (Memory.write_wf hm (by omega) b) (by omega)

/-- Every byte after writing consecutive bytes: byte k at `a + k`, every other address as before. -/
theorem Memory.read_writeBytes {m : Memory} (hm : m.Pairwise (fun c d => c.1 < d.1)) (a : Nat) (bs : List Byte) (b : Nat) :
    (m.writeBytes a bs).read b = if h : a ≤ b ∧ b < a + bs.length then bs[b - a] else m.read b := by
  induction bs generalizing m a with
  | nil =>
    have hno : ¬ (a ≤ b ∧ b < a + ([] : List Byte).length) := by
      rw [List.length_nil]
      omega
    rw [dif_neg hno]
    rfl
  | cons c bs ih =>
    rw [Memory.writeBytes, ih (Memory.pairwise_write hm a c), Memory.read_write hm]
    simp only [List.length_cons]
    by_cases hab : a = b
    · subst hab
      simp
    · by_cases hin : a + 1 ≤ b ∧ b < a + 1 + bs.length
      · have h2 : a ≤ b ∧ b < a + (bs.length + 1) := by omega
        have h3 : b - a = (b - (a + 1)) + 1 := by omega
        simp only [hin, h2, and_self, dif_pos, h3, List.getElem_cons_succ]
      · have h2 : ¬ (a ≤ b ∧ b < a + (bs.length + 1)) := by omega
        simp only [hin, h2, dif_neg, not_false_eq_true, hab, if_false]

@[simp] theorem Memory.length_readBytes (m : Memory) (a n : Nat) : (m.readBytes a n).length = n := by
  simp [Memory.readBytes]

@[simp] theorem Memory.getElem_readBytes (m : Memory) (a n k : Nat) (h : k < (m.readBytes a n).length) :
    (m.readBytes a n)[k] = m.read (a + k) := by
  simp [Memory.readBytes]

/-! ## Equal memories are equal data -/

/-- A listed cell of a canonical memory is what its address reads as. -/
theorem Memory.read_of_mem {m : Memory} (hm : m.Pairwise (fun c d => c.1 < d.1)) {c : Host.Cell} (h : c ∈ m) :
    m.read c.1 = c.2 := by
  induction m with
  | nil => simp at h
  | cons d m ih =>
    obtain ⟨hd, hm'⟩ := List.pairwise_cons.mp hm
    rcases List.mem_cons.mp h with rfl | h
    · simp [Memory.read]
    · have hne : d.1 ≠ c.1 := by have := hd c h; omega
      simp [Memory.read, hne, ih hm' h]

/-- Outside its listed cells a memory reads as at reset. -/
theorem Memory.read_of_not_listed {m : Memory} {a : Nat} (h : ∀ c ∈ m, c.1 ≠ a) : m.read a = resetByte a := by
  induction m with
  | nil => rfl
  | cons d m ih =>
    have hd := h d (by simp)
    simp only [Memory.read, hd, if_false]
    exact ih fun c hc => h c (by simp [hc])

end Sys2Proof.Machine
end

