-- ==== Sys2Proof/Laws/Step.lean ====
section
/-! SUPPORT. Everything a step can do, said once. -/

namespace Sys2Proof.Machine

/-- A cycle of a faulted block answers the state it was given (40_cycle.md R96). -/
theorem step_of_faulted {s : State} {e : Error} (h : s.mode = .faulted e) : step s = .next s := by
  simp [step, h]

theorem State.alive_iff (s : State) : s.alive = true ↔ ∀ e, s.mode ≠ .faulted e := by
  cases h : s.mode <;> simp [State.alive, State.lastError, h]

/-- A cycle of a block that executes, at a pc inside Memory: the instruction runs on the state after the fetch (40_cycle.md R90). -/
theorem step_of_alive {s : State} (ha : s.alive = true) (h : s.pc.toNat < memSize) :
    step s = completeCycle (exec (decode s.wordAtPc) (s.setPc (advancePc s.pc))) := by
  rw [State.alive_iff] at ha
  cases hm : s.mode with
  | ready => simp [step, hm, State.fetch_ok h]
  | running => simp [step, hm, State.fetch_ok h]
  | faulted e => exact absurd hm (ha e)

/-- A cycle of a block that executes, at a pc outside Memory, stops. -/
theorem step_of_no_address {s : State} (ha : s.alive = true) (h : ¬ s.pc.toNat < memSize) :
    step s = .fault (.noSuchAddress s.pc.toNat) := by
  rw [State.alive_iff] at ha
  cases hm : s.mode with
  | ready => simp [step, hm, State.fetch_error h]
  | running => simp [step, hm, State.fetch_error h]
  | faulted e => exact absurd hm (ha e)

theorem completeCycle_eq_next {o : Host.Outcome State Fault Refusal} {t : State} (h : completeCycle o = .next t) :
    ∃ u, o = .next u ∧ t = u.finishCycle := by
  cases o with
  | next u => exact ⟨u, rfl, by simpa [completeCycle] using h.symm⟩
  | fault f => simp [completeCycle] at h
  | refused r => simp [completeCycle] at h

/-- Everything a step that answers a next state can have done: nothing, in mode Faulted; otherwise the fetch, then the decoded
instruction, then the mode. -/
theorem step_next_cases {s t : State} (h : step s = .next t) :
    (s.alive = false ∧ t = s) ∨
    (s.alive = true ∧ s.pc.toNat < memSize ∧
      ∃ u, exec (decode s.wordAtPc) (s.setPc (advancePc s.pc)) = .next u ∧ t = u.finishCycle) := by
  cases ha : s.alive with
  | false =>
    left
    have : ∃ e, s.mode = .faulted e := by
      cases hm : s.mode <;> simp [State.alive, State.lastError, hm] at ha ⊢
    obtain ⟨e, he⟩ := this
    rw [step_of_faulted he] at h
    exact ⟨rfl, by simpa using h.symm⟩
  | true =>
    right
    by_cases hp : s.pc.toNat < memSize
    · rw [step_of_alive ha hp] at h
      exact ⟨rfl, hp, completeCycle_eq_next h⟩
    · rw [step_of_no_address ha hp] at h
      simp at h

/-- A run goes on from the state its first step answers. -/
theorem run_succ_of_step {s t : State} (h : step s = .next t) (k : Nat) :
    Host.Core.run Sys2Proof.core (k + 1) s = Host.Core.run Sys2Proof.core k t := by
  have hc : Sys2Proof.core.step s = .next t := h
  simp only [Host.Core.run, hc]

end Sys2Proof.Machine
end

