-- ==== Sys2Proof/Laws/HostPort.lean ====
section
/-! SUPPORT. What a load, a cycle with its answer and a host operation can do, each said once. -/

namespace Sys2Proof.Machine

theorem load_empty (s : State) : load [] s = (.err .emptyProgram, s) := rfl

theorem load_tooLarge {src : List Byte} (h : progMax < src.length) (s : State) :
    load src s = (.err .programTooLarge, s) := by
  have h0 : src.length ≠ 0 := by omega
  simp [load, h0, h]

/-- A load of an accepted length copies the program and sets the mode; nothing else. -/
theorem load_accepted {src : List Byte} (h0 : src ≠ []) (h : src.length ≤ progMax) (s : State) :
    load src s = (.ok, s.copyProgram src) := by
  have h1 : src.length ≠ 0 := by simpa using h0
  simp [load, h1, Nat.not_lt.mpr h]

/-- The state after any load: the one before, or the program copied. -/
theorem load_cases (src : List Byte) (s : State) :
    (load src s).2 = s ∨ (src.length ≤ progMax ∧ load src s = (.ok, s.copyProgram src)) := by
  by_cases h0 : src = []
  · exact .inl (by rw [h0, load_empty])
  · by_cases h : src.length ≤ progMax
    · exact .inr ⟨h, load_accepted h0 h s⟩
    · exact .inl (by rw [load_tooLarge (by omega)])

@[simp] theorem decrementByte_zero : decrementByte 0 = 0 := rfl

/-- A cycle with its answer is the step and what its next state records. -/
theorem cycle_eq_next {s t : State} {r : Result} (h : cycle s = .next (r, t)) : step s = .next t ∧ r = t.cycleResult := by
  unfold cycle at h
  split at h
  · rename_i u hu
    simp only [Host.Outcome.next.injEq, Prod.mk.injEq] at h
    exact ⟨by rw [hu, h.2], by rw [← h.1, h.2]⟩
  · simp at h
  · simp at h

/-- Everything a host operation can do to the state (70_reset_and_hazards.md R176). -/
theorem hostOp_next_cases {op : HostOp} {s t : State} {r : HostReply} (h : hostOp op s = .next (r, t)) :
    t = s ∨ t = State.reset ∨ (∃ src, t = (load src s).2) ∨ step s = .next t ∨ ∃ k, t = s.decrementTimer k := by
  cases op with
  | construct => simp [hostOp] at h; exact .inr (.inl h.2.symm)
  | load src => simp [hostOp] at h; exact .inr (.inr (.inl ⟨src, h.2.symm⟩))
  | cycle =>
    simp only [hostOp] at h
    split at h
    · rename_i r' t' hc
      simp only [Host.Outcome.next.injEq, Prod.mk.injEq] at h
      rw [h.2] at hc
      exact .inr (.inr (.inr (.inl (cycle_eq_next hc).1)))
    · simp at h
    · simp at h
  | readFrameBuffer => simp [hostOp] at h; exact .inl h.2.symm
  | readTimer k => simp [hostOp] at h; exact .inl h.2.symm
  | decrementTimer k => simp [hostOp] at h; exact .inr (.inr (.inr (.inr ⟨k, h.2.symm⟩)))
  | readMode => simp [hostOp] at h; exact .inl h.2.symm

end Sys2Proof.Machine
end

