-- ==== Sys2Proof/Laws/PerInstr.lean ====
section
/-! SUPPORT. Per instruction: the number of its word lies in its family's range. -/

namespace Sys2Proof.Laws.WordRange

/-- The lowest and the highest word of an instruction's family, as numbers (30_encoding.md R74). -/
def familyRange : Instr → Nat × Nat
  | .clearScreen => (0x00E0, 0x00E0)
  | .stopSubroutine => (0x00EE, 0x00EE)
  | .jump _ => (0x1000, 0x1FFF)
  | .callSubroutine _ => (0x2000, 0x2FFF)
  | .setRegister _ _ => (0x6000, 0x6FFF)
  | .addToRegister _ _ => (0x7000, 0x7FFF)
  | .setIndex _ => (0xA000, 0xAFFF)
  | .display _ _ _ => (0xD000, 0xDFFF)
  | .unknownInstruction _ => (0x0000, 0xFFFF)

/-- The word of an instruction lies in its family's range. -/
def Statement (i : Instr) : Prop :=
  (familyRange i).1 ≤ (encode i).toNat ∧ (encode i).toNat ≤ (familyRange i).2

theorem clearScreen : Statement .clearScreen := ⟨by decide, by decide⟩

theorem stopSubroutine : Statement .stopSubroutine := ⟨by decide, by decide⟩

theorem jump (nnn : Addr) : Statement (.jump nnn) := by
  have := nnn.isLt
  simp only [Statement, familyRange, toNat_encode_jump]
  omega

theorem callSubroutine (nnn : Addr) : Statement (.callSubroutine nnn) := by
  have := nnn.isLt
  simp only [Statement, familyRange, toNat_encode_callSubroutine]
  omega

theorem setRegister (x : RegNum) (kk : Byte) : Statement (.setRegister x kk) := by
  have := x.isLt
  have := kk.isLt
  simp only [Statement, familyRange, toNat_encode_setRegister]
  omega

theorem addToRegister (x : RegNum) (kk : Byte) : Statement (.addToRegister x kk) := by
  have := x.isLt
  have := kk.isLt
  simp only [Statement, familyRange, toNat_encode_addToRegister]
  omega

theorem setIndex (nnn : Addr) : Statement (.setIndex nnn) := by
  have := nnn.isLt
  simp only [Statement, familyRange, toNat_encode_setIndex]
  omega

theorem display (x y : RegNum) (n : RowCount) : Statement (.display x y n) := by
  have := x.isLt
  have := y.isLt
  have := n.isLt
  simp only [Statement, familyRange, toNat_encode_display]
  omega

theorem unknownInstruction (raw : Word) : Statement (.unknownInstruction raw) := by
  have := raw.isLt
  simp only [Statement, familyRange, encode]
  omega

end Sys2Proof.Laws.WordRange
end

