-- ==== Sys2Proof/Laws/Sprite.lean ====
section
/-! SUPPORT. What the sprite engine's operations do to a pixel and to the collision test. -/

namespace Sys2Proof.Machine

/-! ## One pixel -/

@[simp] theorem FrameBuffer.pixel_clear (x : Fin 64) (y : Fin 32) : FrameBuffer.clear.pixel x y = false := by
  simp [FrameBuffer.pixel, FrameBuffer.clear]

/-- Every pixel after one XOR: the target is XORed, the others keep their value. -/
theorem FrameBuffer.pixel_xorPixel (fb : FrameBuffer) (x X : Fin 64) (y Y : Fin 32) (b : Bool) :
    (fb.xorPixel x y b).pixel X Y = (fb.pixel X Y ^^ (decide (x = X ∧ y = Y) && b)) := by
  cases b with
  | false => simp [FrameBuffer.xorPixel]
  | true =>
    simp only [FrameBuffer.xorPixel, if_true, FrameBuffer.pixel, Vector.getElem_set, Bool.and_true]
    by_cases hy : y = Y
    · subst hy
      simp [Fin.ext_iff, eq_comm]
    · have hyv : y.val ≠ Y.val := fun h => hy (Fin.ext h)
      simp [hy, hyv]

/-- Two frame buffers with the same pixels are the same. -/
theorem FrameBuffer.ext_pixel {f g : FrameBuffer} (h : ∀ x y, f.pixel x y = g.pixel x y) : f = g := by
  apply Vector.ext
  intro y hy
  apply BitVec.eq_of_getLsbD_eq
  intro x hx
  exact h ⟨x, hx⟩ ⟨y, hy⟩

/-! ## Several bits -/

/-- Some ON bit of the list lands on the pixel. -/
def litAt (bits : List PlacedBit) (X : Fin 64) (Y : Fin 32) : Bool :=
  bits.any fun p => decide (p.x = X ∧ p.y = Y) && p.bit

/-- Each bit has a target pixel of its own. -/
abbrev distinctTargets (bits : List PlacedBit) : Prop := bits.Pairwise fun p q => ¬ (p.x = q.x ∧ p.y = q.y)

/-- Every pixel after drawing bits with targets of their own: XORed with the bit that lands there. -/
theorem FrameBuffer.pixel_drawBits (fb : FrameBuffer) {bits : List PlacedBit} (h : distinctTargets bits)
    (X : Fin 64) (Y : Fin 32) : (fb.drawBits bits).pixel X Y = (fb.pixel X Y ^^ litAt bits X Y) := by
  induction bits generalizing fb with
  | nil => simp [FrameBuffer.drawBits, litAt]
  | cons p bits ih =>
    obtain ⟨hp, hbits⟩ := List.pairwise_cons.mp h
    have hstep : fb.drawBits (p :: bits) = (fb.xorPixel p.x p.y p.bit).drawBits bits := rfl
    rw [hstep, ih _ hbits, FrameBuffer.pixel_xorPixel]
    by_cases hhit : p.x = X ∧ p.y = Y
    · have hrest : litAt bits X Y = false := by
        simp only [litAt, List.any_eq_false]
        intro q hq
        have := hp q hq
        simp only [hhit.1, hhit.2] at this
        have hne : ¬ (q.x = X ∧ q.y = Y) := fun hq' => this ⟨hq'.1.symm, hq'.2.symm⟩
        simp [hne]
      have hlit : litAt (p :: bits) X Y = (p.bit || litAt bits X Y) := by simp [litAt, hhit]
      rw [hlit, hrest]
      simp [hhit]
    · have hlit : litAt (p :: bits) X Y = litAt bits X Y := by simp [litAt, hhit]
      rw [hlit]
      simp [hhit]

/-- The collision test, pixel by pixel (43_display.md R123). -/
theorem FrameBuffer.collides_iff (fb : FrameBuffer) (bits : List PlacedBit) :
    fb.collides bits = true ↔ ∃ X Y, litAt bits X Y = true ∧ fb.pixel X Y = true := by
  simp only [FrameBuffer.collides, litAt, List.any_eq_true, Bool.and_eq_true, decide_eq_true_eq]
  constructor
  · rintro ⟨p, hp, hb, hpix⟩
    exact ⟨p.x, p.y, ⟨p, hp, ⟨rfl, rfl⟩, hb⟩, hpix⟩
  · rintro ⟨X, Y, ⟨p, hp, ⟨rfl, rfl⟩, hb⟩, hpix⟩
    exact ⟨p, hp, hb, hpix⟩

/-! ## Where the bits of a sprite land -/

theorem placeBit_eq_some {x0 : Fin 64} {y0 : Fin 32} {i j : Nat} {row : Byte} {p : PlacedBit}
    (h : placeBit x0 y0 i row j = some p) : p.x.val = x0.val + j ∧ p.y.val = y0.val + i ∧ p.bit = spriteBit row j := by
  unfold placeBit at h
  split at h
  · cases h
    exact ⟨rfl, rfl, rfl⟩
  · simp at h

theorem mem_placeRow {x0 : Fin 64} {y0 : Fin 32} {i : Nat} {row : Byte} {p : PlacedBit} :
    p ∈ placeRow x0 y0 i row ↔
      ∃ j, j < 8 ∧ p.x.val = x0.val + j ∧ p.y.val = y0.val + i ∧ p.bit = spriteBit row j := by
  simp only [placeRow, List.mem_filterMap, List.mem_range]
  constructor
  · rintro ⟨j, hj, h⟩
    exact ⟨j, hj, placeBit_eq_some h⟩
  · rintro ⟨j, hj, hx, hy, hb⟩
    refine ⟨j, hj, ?_⟩
    have h1 := p.x.isLt
    have h2 := p.y.isLt
    rw [placeBit, dif_pos (by omega)]
    cases p
    simp only [Option.some.injEq, PlacedBit.mk.injEq, Fin.ext_iff]
    exact ⟨hx.symm, hy.symm, hb.symm⟩

theorem mem_placeRows {x0 : Fin 64} {y0 : Fin 32} {i : Nat} {rows : List Byte} {p : PlacedBit} :
    p ∈ placeRows x0 y0 i rows ↔
      ∃ k, ∃ hk : k < rows.length, ∃ j, j < 8 ∧ p.x.val = x0.val + j ∧ p.y.val = y0.val + (i + k) ∧
        p.bit = spriteBit rows[k] j := by
  induction rows generalizing i with
  | nil => simp [placeRows]
  | cons row rows ih =>
    simp only [placeRows, List.mem_append, mem_placeRow, ih]
    constructor
    · rintro (⟨j, hj, hx, hy, hb⟩ | ⟨k, hk, j, hj, hx, hy, hb⟩)
      · exact ⟨0, by simp, j, hj, hx, by omega, by simpa using hb⟩
      · exact ⟨k + 1, by simpa using hk, j, hj, hx, by omega, by simpa using hb⟩
    · rintro ⟨k, hk, j, hj, hx, hy, hb⟩
      cases k with
      | zero => exact .inl ⟨j, hj, hx, by omega, by simpa using hb⟩
      | succ k => exact .inr ⟨k, by simpa using hk, j, hj, hx, by omega, by simpa using hb⟩

theorem placeRow_distinct (x0 : Fin 64) (y0 : Fin 32) (i : Nat) (row : Byte) : distinctTargets (placeRow x0 y0 i row) := by
  refine List.Pairwise.filterMap (R := (· < ·)) _ ?_ List.pairwise_lt_range
  intro j j' hjj' p hp q hq
  have h1 := placeBit_eq_some hp
  have h2 := placeBit_eq_some hq
  rintro ⟨hx, -⟩
  rw [hx] at h1
  omega

theorem placeRows_distinct (x0 : Fin 64) (y0 : Fin 32) (i : Nat) (rows : List Byte) :
    distinctTargets (placeRows x0 y0 i rows) := by
  induction rows generalizing i with
  | nil => exact List.Pairwise.nil
  | cons row rows ih =>
    refine List.pairwise_append.mpr ⟨placeRow_distinct x0 y0 i row, ih (i + 1), ?_⟩
    intro p hp q hq
    obtain ⟨_, _, _, hy, _⟩ := mem_placeRow.mp hp
    obtain ⟨_, _, _, _, _, hy', _⟩ := mem_placeRows.mp hq
    rintro ⟨-, he⟩
    rw [he] at hy
    omega

/-- No two bits of one sprite land on the same pixel (43_display.md R123). -/
theorem placeSprite_distinct (x0 : Fin 64) (y0 : Fin 32) (rows : List Byte) : distinctTargets (placeSprite x0 y0 rows) :=
  placeRows_distinct x0 y0 0 rows

/-- Where a sprite is ON: pixel (X, Y) lies in its rows and columns, and the bit there is ON (43_display.md R121, R124). -/
theorem litAt_placeSprite (x0 : Fin 64) (y0 : Fin 32) (rows : List Byte) (X : Fin 64) (Y : Fin 32) :
    litAt (placeSprite x0 y0 rows) X Y = true ↔
      y0.val ≤ Y.val ∧ x0.val ≤ X.val ∧ X.val < x0.val + 8 ∧
        ∃ h : Y.val - y0.val < rows.length, spriteBit rows[Y.val - y0.val] (X.val - x0.val) = true := by
  simp only [litAt, List.any_eq_true, Bool.and_eq_true, decide_eq_true_eq, placeSprite, mem_placeRows]
  constructor
  · rintro ⟨p, ⟨k, hk, j, hj, hx, hy, hb⟩, ⟨rfl, rfl⟩, hbit⟩
    have e1 : p.y.val - y0.val = k := by omega
    have e2 : p.x.val - x0.val = j := by omega
    refine ⟨by omega, by omega, by omega, by omega, ?_⟩
    simp only [e1, e2]
    rw [← hb, hbit]
  · rintro ⟨h1, h2, h3, hk, hbit⟩
    exact ⟨⟨X, Y, true⟩, ⟨Y.val - y0.val, hk, X.val - x0.val, by omega, by simp only; omega, by simp only; omega,
      hbit.symm⟩, ⟨rfl, rfl⟩, rfl⟩

/-- Column j of a row, j = 0 the leftmost, is bit 7 - j of the byte. -/
theorem spriteBit_eq (row : Byte) {j : Nat} (h : j < 8) : spriteBit row j = row.getLsbD (7 - j) := by
  simp [spriteBit, BitVec.getMsbD, h]

end Sys2Proof.Machine
end

