-- ==== Sys2Proof/Tests/Slice0.lean ====
section
/-! SUPPORT. Tests against the vectors of 95_test_vectors.md (their ids stand at each test), the WellFormed smoke test, words written out
bit by bit from 30_encoding.md R75, and a witness for the hypotheses of every statement. -/

namespace Sys2Proof.Tests

open Sys2Proof.Machine

/-- The next state of an answer; the state after reset where there is none. -/
def after : Host.Outcome State Fault Refusal → State
  | .next t => t
  | .fault _ => State.reset
  | .refused _ => State.reset

/-- Whether an answer is a next state. -/
def isNext : Host.Outcome State Fault Refusal → Bool
  | .next _ => true
  | .fault _ => false
  | .refused _ => false

/-- The construction state at pc with the word `w` in the two bytes the next cycle fetches. -/
def at_ (pc : Word) (w : Nat) : State := (State.reset.setPc pc).withFetchWord 16 w

/-- As `at_`, with V0, V1, VF and I set and one byte at I. -/
def drawState (v0 v1 vf : Byte) (index : Word) (byte : Byte) (w : Nat) : State :=
  let s := ((((State.reset.writeV 0 v0).writeV 1 v1).writeV 15 vf).setIndex index).setPc 0x200
  { s with mem := s.mem.write index.toNat byte }.withFetchWord 16 w

/-- One pixel ON. -/
def onePixel (x : Fin 64) (y : Fin 32) : FrameBuffer := FrameBuffer.clear.xorPixel x y true

/-- A stack of k entries 0x202. -/
def deep (k : Nat) (s : State) : State := { s with stack := List.replicate k 0x202 }

theorem depth_deep (k : Nat) (s : State) : (deep k s).depth = k := List.length_replicate

/-! ## WellFormed: each check refuses an ill-formed term (R78) -/

theorem test_wellFormed_refuses_literals :
    (Instr.unknownInstruction 0x00E0).wellFormed = false ∧ (Instr.unknownInstruction 0x00EE).wellFormed = false := by decide

theorem test_wellFormed_refuses_family_words :
    [0x1000, 0x1FFF, 0x2000, 0x2FFF, 0x6000, 0x7FFF, 0xA000, 0xAFFF, 0xD000, 0xDFFF].all
      (fun n => !(Instr.unknownInstruction (BitVec.ofNat 16 n)).wellFormed) = true := by decide

theorem test_wellFormed_accepts_unknown_space :
    [0x0000, 0x00DF, 0x00E1, 0x00EF, 0x0FFF, 0x3000, 0x5FFF, 0x8000, 0x9FFF, 0xB000, 0xCFFF, 0xE000, 0xFFFF].all
      (fun n => (Instr.unknownInstruction (BitVec.ofNat 16 n)).wellFormed) = true := by decide

/-! ## Decoding words written out from R75's bit patterns -/

theorem test_decode_CLS : decode 0b0000000011100000 = .clearScreen := by decide
theorem test_decode_RET : decode 0b0000000011101110 = .stopSubroutine := by decide
theorem test_decode_JP : decode 0b0001101010111100 = .jump 0xABC := by decide
theorem test_decode_CALL : decode 0b0010111111111111 = .callSubroutine 0xFFF := by decide
theorem test_decode_LD_Vx : decode 0b0110101000111111 = .setRegister 0xA 0x3F := by decide
theorem test_decode_ADD_Vx : decode 0b0111101100010000 = .addToRegister 0xB 0x10 := by decide
theorem test_decode_LD_I : decode 0b1010111111100000 = .setIndex 0xFE0 := by decide
theorem test_decode_DRW : decode 0b1101000100100011 = .display 1 2 3 := by decide
theorem test_decode_UNKNOWN : decode 0b1000000000010100 = .unknownInstruction 0x8014 := by decide

/-- 95_test_vectors.md section 2.2. -/
theorem test_decode_unknown_space :
    [0x0000, 0x00E1, 0x00EF, 0x0E00, 0x01EE, 0x3A12, 0x4000, 0x5120, 0x8014, 0x9120, 0xB123, 0xC0FF, 0xE09E, 0xF065, 0xFFFF].all
      (fun n => decide (decode (BitVec.ofNat 16 n) = .unknownInstruction (BitVec.ofNat 16 n))) = true := by decide

theorem test_decodeBytes_too_few :
    decodeBytes [] = .error .tooFewBytes ∧ decodeBytes [0x12] = .error .tooFewBytes := ⟨rfl, rfl⟩

theorem test_decodeTableWord : decodeTableWord 16 0x10E0 = some (.jump 0x0E0) := by decide

/-- L1-7, and the words of R80. -/
theorem test_encode :
    encode (.display 0xF 0 0xF) = 0xDF0F ∧ encode (.jump 0xABC) = 0x1ABC ∧ encode (.setRegister 0xA 0x3F) = 0x6A3F ∧
    encodeBytes (.addToRegister 0xB 0x10) = [0x7B, 0x10] := by decide

/-! ## Fetch and cycle -/

/-- L1-1: 4094, then 0, then 2; and 4095, then 1 (R24). -/
theorem test_advancePc : advancePc 4094 = 0 ∧ advancePc 0 = 2 ∧ advancePc 4095 = 1 := by decide

/-- V-F3: pc = 0xFFF takes its second byte from 0x000. -/
theorem test_fetch_wraps : (after (step (at_ 0xFFF 0x1200))).pc = 0x200 := by decide

/-- V-F4: an odd pc. -/
theorem test_fetch_odd : (after (step (at_ 0x201 0x6122))).readV 1 = 0x22 ∧ (after (step (at_ 0x201 0x6122))).pc = 0x203 := by
  decide

/-- V-F5: construction, load, first cycle. -/
theorem test_first_cycle_faults :
    (after (step (load [0x60, 0x01] State.reset).2)).pc = 2 ∧
    (after (step (load [0x60, 0x01] State.reset).2)).mode = .faulted (.unsupportedOpcode 0) := by decide

/-- V-F6: a faulted block does nothing. -/
theorem test_faulted_cycle :
    (after (step ((at_ 0x302 0x6001).setMode (.faulted .stackUnderflow)))).pc = 0x302 := by decide

/-! ## Control flow -/

/-- V-C2. -/
theorem test_jump : (after (step (at_ 0x200 0x1FFF))).pc = 0xFFF := by decide

/-- V-C1. -/
theorem test_jump_keeps_stack : (after (step ((at_ 0x202 0x1200).push 0x400))).stack = [0x400] := by decide

/-- V-C4. -/
theorem test_call_at_top :
    (after (step (at_ 0xFFE 0x2300))).stack = [0] ∧ (after (step (at_ 0xFFE 0x2300))).pc = 0x300 := by decide

/-- V-C6. -/
theorem test_call_overflow :
    (after (step (deep 256 (at_ 0x200 0x2300)))).mode = .faulted (.stackOverflow 0x202) ∧
    (after (step (deep 256 (at_ 0x200 0x2300)))).pc = 0x202 ∧ (after (step (deep 256 (at_ 0x200 0x2300)))).depth = 256 := by
  decide +kernel

/-- V-C7 (the top of the stack is written first here). -/
theorem test_return :
    (after (step { at_ 0x500 0x00EE with stack := [0x404, 0x202] })).pc = 0x404 ∧
    (after (step { at_ 0x500 0x00EE with stack := [0x404, 0x202] })).stack = [0x202] := by decide

/-- V-C8. -/
theorem test_return_underflow :
    (after (step (at_ 0x300 0x00EE))).mode = .faulted .stackUnderflow ∧ (after (step (at_ 0x300 0x00EE))).pc = 0x302 := by
  decide

/-! ## Register instructions -/

/-- V-F1. -/
theorem test_setRegister :
    (after (step (at_ 0x200 0x6A3F))).readV 0xA = 0x3F ∧ (after (step (at_ 0x200 0x6A3F))).mode = .running := by decide

/-- V-R2. -/
theorem test_setRegister_VF : (after (step (at_ 0x200 0x6F01))).readV 0xF = 0x01 := by decide

/-- L1-3. -/
theorem test_addToRegister_wraps :
    (after (step (((at_ 0x200 0x70AB).writeV 0 0xFF).writeV 15 0x5A))).readV 0 = 0xAA ∧
    (after (step (((at_ 0x200 0x70AB).writeV 0 0xFF).writeV 15 0x5A))).readV 15 = 0x5A := by decide

/-- V-R5. -/
theorem test_addToRegister_VF : (after (step ((at_ 0x200 0x7F01).writeV 15 0xFF))).readV 15 = 0 := by decide

/-- V-R9. -/
theorem test_setIndex : (after (step ((at_ 0x200 0xA050).setIndex 0x0FFF))).index = 0x0050 := by decide

/-! ## Display instructions -/

/-- V-D16. -/
theorem test_clearScreen :
    (after (step (((at_ 0x200 0x00E0).setFb (onePixel 9 9)).writeV 15 1))).fb = FrameBuffer.clear ∧
    (after (step (((at_ 0x200 0x00E0).setFb (onePixel 9 9)).writeV 15 1))).readV 15 = 1 := by decide

/-- V-D2: the origin is reduced to (63, 31). -/
theorem test_display_origin_reduced :
    (after (step (drawState 0xFF 0xFF 0 0x300 0x80 0xD011))).fb = onePixel 63 31 := by decide

/-- V-D6: one pixel set, one turned off, VF = 1. -/
theorem test_display_collision :
    (after (step ((drawState 0 0 0 0x300 0xC0 0xD001).setFb (onePixel 1 0)))).fb = onePixel 0 0 ∧
    (after (step ((drawState 0 0 0 0x300 0xC0 0xD001).setFb (onePixel 1 0)))).readV 15 = 1 := by decide

/-- V-D10: out of bounds, nothing drawn and VF kept. -/
theorem test_display_out_of_bounds :
    (after (step ((drawState 0 0 1 0xFFF 0 0xD002).setFb (onePixel 5 5)))).mode = .faulted (.memoryOutOfBounds 0xFFF 2) ∧
    (after (step ((drawState 0 0 1 0xFFF 0 0xD002).setFb (onePixel 5 5)))).fb = onePixel 5 5 := by decide

/-- V-D8: height zero clears VF. -/
theorem test_display_height_zero :
    (after (step (drawState 0 0 1 0xFFF 0 0xD000))).readV 15 = 0 ∧ (after (step (drawState 0 0 1 0xFFF 0 0xD000))).mode = .running := by
  decide

/-! ## UnknownInstruction -/

/-- The example of R93. -/
theorem test_unknown :
    (after (step (at_ 0x200 0x8014))).mode = .faulted (.unsupportedOpcode 0x8014) ∧ (after (step (at_ 0x200 0x8014))).pc = 0x202 := by
  decide

/-! ## Load and reset -/

/-- V-L3: the shorter second program leaves the first one's tail. -/
theorem test_reload :
    let m := (load [0x11, 0x22] (load [0xAA, 0xBB, 0xCC, 0xDD] State.reset).2).2.mem
    (m.read 0x200, m.read 0x201, m.read 0x202, m.read 0x203) = (0x11, 0x22, 0xCC, 0xDD) := by decide

/-- V-L5: a load into a faulted block keeps the fault record. -/
theorem test_load_faulted :
    (load [0x60, 0x01] (State.reset.setMode (.faulted .stackUnderflow))).2.mode = .faulted .stackUnderflow := by decide

/-- L1-6b and the bound of R172. -/
theorem test_load_rejected :
    (load [] State.reset).1 = .err .emptyProgram ∧ (load (List.replicate 3585 0) State.reset).1 = .err .programTooLarge := by
  exact ⟨by decide, by decide +kernel⟩

/-- V-L6: the font's first glyph, and the byte before it. -/
theorem test_reset_font :
    State.reset.mem.readBytes 0x050 5 = [0xF0, 0x90, 0x90, 0x90, 0xF0] ∧ State.reset.mem.read 0x04F = 0 ∧
    State.reset.mem.readBytes 0x09B 6 = [0xF0, 0x80, 0xF0, 0x80, 0x80, 0x00] := by decide

/-- V-L7. -/
theorem test_timer_at_zero : (State.reset.decrementTimer .delay).delay = 0 := by decide

/-- Writing what an unlisted address reads as removes the entry. -/
theorem test_memory_canonical :
    (Memory.write [(0x050, 0x01)] 0x050 0xF0) = [] ∧ Memory.write [(0x300, 1)] 0x200 2 = [(0x200, 2), (0x300, 1)] := by decide

/-! ## Witnesses: the hypotheses of each statement are met together -/

theorem witness_DecodeByLiteralThenTopNibble :
    (0x1000 : Word) ≠ 0x00E0 ∧ (0x1000 : Word) ≠ 0x00EE ∧ (0x1FFF : Word).toNat / 4096 = 0x1 ∧ (0x2000 : Word).toNat / 4096 = 0x2 ∧
    (0x6FFF : Word).toNat / 4096 = 0x6 ∧ (0x7000 : Word).toNat / 4096 = 0x7 ∧ (0xAFFF : Word).toNat / 4096 = 0xA ∧
    (0xD000 : Word).toNat / 4096 = 0xD ∧ (0xE000 : Word).toNat / 4096 ∉ [0x1, 0x2, 0x6, 0x7, 0xA, 0xD] := by decide

theorem witness_DecodeOfEncodeIsTheInstruction :
    (Instr.display 0xF 0 0xF).wellFormed = true ∧ (Instr.unknownInstruction 0x0000).wellFormed = true := by decide

theorem witness_OpcodeTableSelectsTheVariant : (⟨.jump, 0x1000, 0xF000⟩ : OpcodeRow) ∈ opcodeRows := by decide

theorem witness_FetchAdvancesPcByTwoModulo4096 : (at_ 0xFFF 0x1200).pc.toNat < 4096 := by decide

theorem witness_FetchReadsTheWordFirstByteHigh : (at_ 0x201 0x6122).pc.toNat < 4096 := by decide

theorem witness_FetchOutsideMemoryStopsByName :
    (at_ 0x1000 0x1200).alive = true ∧ 4096 ≤ (at_ 0x1000 0x1200).pc.toNat := by decide

theorem witness_StepRunsTheDecodedInstruction :
    (at_ 0xFFF 0x1200).alive = true ∧ (at_ 0xFFF 0x1200).pc.toNat < 4096 ∧
    decodeBytes [(at_ 0xFFF 0x1200).mem.read 0xFFF, (at_ 0xFFF 0x1200).mem.read ((0xFFF + 1) % 4096)] = .ok (.jump 0x200, []) ∧
    exec (.jump 0x200) { at_ 0xFFF 0x1200 with pc := 1 } = .next ({ at_ 0xFFF 0x1200 with pc := 1 }.setPc (zextAddr 0x200)) :=
  ⟨by decide, by decide, rfl, rfl⟩

theorem witness_FaultedCycleChangesNothing : ((at_ 0x302 0x6001).setMode (.faulted .stackUnderflow)).mode = .faulted .stackUnderflow :=
  rfl

theorem witness_CycleEndsRunningOrFaulted :
    (at_ 0x200 0x6A3F).alive = true ∧ ∃ t, cycle (at_ 0x200 0x6A3F) = .next (.ok, t) ∧ t.mode = .running :=
  ⟨by decide, _, rfl, rfl⟩

theorem witness_FaultIsPrecise :
    (at_ 0x300 0x00EE).alive = true ∧ ∃ t, step (at_ 0x300 0x00EE) = .next t ∧ t.mode = .faulted .stackUnderflow :=
  ⟨by decide, _, rfl, rfl⟩

theorem witness_EachErrorHasItsOneCause_overflow :
    ∃ s : State, s.alive = true ∧ s.depth = 256 ∧ isNext (exec (.callSubroutine 0) s) = true :=
  ⟨deep 256 State.reset, by decide, depth_deep 256 _, by decide +kernel⟩

theorem witness_EachErrorHasItsOneCause_others :
    State.reset.alive = true ∧ exec .stopSubroutine State.reset = .next (State.reset.raise .stackUnderflow) ∧
    exec (.display 0 0 2) (State.reset.setIndex 0xFFF) = .next ((State.reset.setIndex 0xFFF).raise (.memoryOutOfBounds 0xFFF 2)) ∧
    exec (.unknownInstruction 0xFFFF) State.reset = .next (State.reset.raise (.unsupportedOpcode 0xFFFF)) :=
  ⟨by decide, rfl, rfl, rfl⟩

theorem witness_SelfJumpIsAFixedPoint :
    (at_ 0x300 0x1300).alive = true ∧ (at_ 0x300 0x1300).pc.toNat < 4096 ∧
    ((at_ 0x300 0x1300).mem.read 0x300).toNat * 256 + ((at_ 0x300 0x1300).mem.read ((0x300 + 1) % 4096)).toNat = 0x1000 + 0x300 := by
  decide

theorem witness_StepKeepsTheInvariant : (at_ 0xFFE 0x2300).Inv ∧ isNext (step (at_ 0xFFE 0x2300)) = true := by decide

theorem witness_CycleAnswersFromEveryGoodState : (at_ 0xFFF 0xD00F).Inv := by decide

theorem witness_HostOperationsKeepTheInvariant : (deep 256 (at_ 0xFFF 0x2300)).Inv := by decide +kernel

theorem witness_CanonicalMemoriesWithEqualBytesAreEqual :
    Memory.wf [(0x050, 0x01), (0xFFF, 0x02)] ∧
    ∀ a, a < 4096 → Memory.read [(0x050, 0x01), (0xFFF, 0x02)] a = Memory.read [(0x050, 0x01), (0xFFF, 0x02)] a :=
  ⟨by decide, fun _ _ => rfl⟩

theorem witness_CallPushesTheReturnAddress : (deep 255 State.reset).depth ≠ 256 ∧ State.reset.depth ≠ 256 := by
  rw [depth_deep]
  decide

theorem witness_CallAtCapacityOverflows : (deep 256 State.reset).depth = 256 := depth_deep 256 _

theorem witness_ReturnPopsThePcOffTheStack : (State.reset.push 0x202).stack = 0x202 :: [] := rfl

theorem witness_ReturnOnAnEmptyStackUnderflows : State.reset.depth = 0 := rfl

theorem witness_CallToAReturnComesBack :
    let s := { at_ 0xFFE 0x2300 with mem := (at_ 0xFFE 0x2300).mem.write 0x301 0xEE }
    s.alive = true ∧ s.pc.toNat < 4096 ∧ s.depth < 256 ∧
    (s.mem.read s.pc.toNat).toNat * 256 + (s.mem.read ((s.pc.toNat + 1) % 4096)).toNat = 0x2000 + (0x300 : Addr).toNat ∧
    s.mem.read (0x300 : Addr).toNat = 0x00 ∧ s.mem.read (((0x300 : Addr).toNat + 1) % 4096) = 0xEE := by decide

theorem witness_family_masks :
    (0x1FFF : Word) &&& 0xF000 = 0x1000 ∧ (0x2000 : Word) &&& 0xF000 = 0x2000 ∧ (0x6FFF : Word) &&& 0xF000 = 0x6000 ∧
    (0x7000 : Word) &&& 0xF000 = 0x7000 ∧ (0xAFFF : Word) &&& 0xF000 = 0xA000 := by decide

/-- For the three statements about a Display in bounds: the highest I with 15 rows, and the lowest with none (V-D11 and V-D8). -/
theorem witness_DisplayInBounds :
    (State.reset.setIndex 0xFF1).index.toNat + (15 : RowCount).val ≤ 4096 ∧
    (State.reset.setIndex 0xFF2).index.toNat + (14 : RowCount).val ≤ 4096 ∧
    (State.reset.setIndex 0xFFF).index.toNat + (0 : RowCount).val ≤ 4096 := by decide

/-- Both outcomes of the flag's statement: a collision at (1, 0), and none on a clear screen. -/
theorem witness_DisplayFlagIsTheWholeSpritesCollision :
    ((drawState 0 0 0 0x300 0xC0 0xD001).setFb (onePixel 1 0)).spriteOn 0 0 1 1 0 = true ∧
    ((drawState 0 0 0 0x300 0xC0 0xD001).setFb (onePixel 1 0)).pixel 1 0 = true ∧
    (∀ X Y, State.reset.spriteOn 0 0 1 X Y = true → State.reset.pixel X Y = false) := by
  refine ⟨by decide, by decide, fun X Y _ => ?_⟩
  simp [State.pixel, State.reset, FrameBuffer.pixel]

theorem witness_DisplayOutOfBoundsFaults : 4096 < (State.reset.setIndex 0xFF2).index.toNat + (15 : RowCount).val := by decide

theorem witness_DisplayFaultsOnlyNearTheTopOfMemory :
    (State.reset.setIndex 0xFF2).alive = true ∧ (State.reset.setIndex 0xFF2).index.toNat < 0x1000 ∧
    ∃ t, exec (.display 0 0 15) (State.reset.setIndex 0xFF2) = .next t ∧ t.alive = false :=
  ⟨by decide, by decide, _, rfl, rfl⟩

theorem witness_DisplayOfHeightZeroClearsTheFlagOnly : (State.reset.setIndex 0xFFF).index.toNat < 0x1000 := by decide

/-- A state in which Display(0, 0, 1) draws one pixel at (0, 0), which is OFF. -/
def drawOff : State := drawState 0 0 0 0x300 0x80 0xD001

/-- The same state with the pixel at (0, 0) ON. -/
def drawOn : State := drawOff.setFb (onePixel 0 0)

theorem witness_DrawingTwiceRestoresTheScreen :
    drawOff.index.toNat + (1 : RowCount).val ≤ 4096 ∧
    ((after (exec (.display 0 0 1) drawOff)).readV 0).toNat % 64 = (drawOff.readV 0).toNat % 64 ∧
    ((after (exec (.display 0 0 1) drawOff)).readV 0).toNat % 32 = (drawOff.readV 0).toNat % 32 ∧
    drawOff.spriteOn 0 0 1 0 0 = true ∧ drawOff.pixel 0 0 = false := by decide

theorem witness_SecondOfTwoDrawsAlwaysCollides :
    isNext (exec (.display 0 0 1) drawOn) = true ∧ (after (exec (.display 0 0 1) drawOn)).alive = true ∧
    isNext (exec (.display 0 0 1) (after (exec (.display 0 0 1) drawOn))) = true ∧
    ((after (exec (.display 0 0 1) drawOn)).readV 0).toNat % 64 = (drawOn.readV 0).toNat % 64 ∧
    ((after (exec (.display 0 0 1) drawOn)).readV 0).toNat % 32 = (drawOn.readV 0).toNat % 32 ∧
    drawOn.spriteOn 0 0 1 0 0 = true := by decide

theorem witness_UnknownInstructionRaisesUnsupportedOpcode :
    inUnknownSpace 0x0000 = true ∧ inUnknownSpace 0x00E1 = true ∧ inUnknownSpace 0x00EF = true ∧ inUnknownSpace 0x3000 = true ∧
    inUnknownSpace 0xFFFF = true := by decide

theorem witness_CycleOnAnUnknownWordFaults :
    (at_ 0xFFF 0x8014).alive = true ∧ (at_ 0xFFF 0x8014).pc.toNat < 4096 ∧ inUnknownSpace 0x8014 = true ∧
    (at_ 0xFFF 0x8014).mem.read 0xFFF = highByte 0x8014 ∧ (at_ 0xFFF 0x8014).mem.read ((0xFFF + 1) % 4096) = lowByte 0x8014 := by
  decide

theorem witness_NoInstructionWritesMemory :
    isNext (exec (.setRegister 0 1) State.reset) = true ∧ isNext (step (at_ 0x200 0x6A3F)) = true := by decide

theorem witness_NoCycleReadsOrWritesATimer : isNext (step (at_ 0x200 0x6A3F)) = true := by decide

theorem witness_FrameBufferIsTouchedByDisplayInstructionsOnly :
    (∀ x y n, Instr.clearScreen ≠ .display x y n) ∧ isNext (exec .clearScreen State.reset) = true ∧
    (∀ x y n, Instr.jump 0 ≠ .display x y n) ∧ isNext (exec (.jump 0) State.reset) = true := by
  refine ⟨?_, by decide, ?_, by decide⟩ <;> intros <;> simp

theorem witness_RegistersChangeOnlyAsDestinations :
    (after (exec (.setRegister 3 1) State.reset)).readV 3 ≠ State.reset.readV 3 ∧
    (after (exec (.addToRegister 3 1) State.reset)).readV 3 ≠ State.reset.readV 3 ∧
    (after (exec (.display 0 0 1) drawOn)).readV 15 ≠ drawOn.readV 15 := by decide

theorem witness_PcStackAndIndexChangeOnlyByTheirInstructions :
    (after (exec (.jump 0x300) State.reset)).pc ≠ State.reset.pc ∧
    (after (exec (.callSubroutine 0x300) State.reset)).stack ≠ State.reset.stack ∧
    (after (exec (.setIndex 0x300) State.reset)).index ≠ State.reset.index := by decide

/-- The shortest program, and the longest: 3584 bytes (V-L1). -/
theorem witness_LoadWritesTheProgramAreaOnly :
    State.reset.mem.wf ∧ 1 ≤ [(0x60 : Byte)].length ∧ [(0x60 : Byte)].length ≤ 3584 ∧ 1 ≤ (List.replicate 3584 (0x60 : Byte)).length ∧
    (List.replicate 3584 (0x60 : Byte)).length ≤ 3584 := by
  rw [List.length_replicate]
  decide

theorem witness_LoadMakesReadyUnlessFaulted :
    1 ≤ [(0x60 : Byte)].length ∧ [(0x60 : Byte)].length ≤ 3584 ∧ State.reset.alive = true ∧
    (State.reset.setMode (.faulted .stackUnderflow)).alive = false := by decide

theorem witness_RejectedLoadChangesNothing : ([] : List Byte).length = 0 ∧ 3584 < (List.replicate 3585 (0 : Byte)).length := by
  rw [List.length_replicate]
  decide

theorem witness_TimerDecrementSaturates : Timer.sound ≠ Timer.delay := by decide

theorem witness_ConstructionState : 0x04F < 0x050 ∨ 0x0A0 ≤ 0x04F := by decide

/-- A register other than the destination, for the frames of the register instructions and of Display. -/
theorem witness_otherRegister : (0xF : RegNum) ≠ 0x3 ∧ (0x3 : RegNum) ≠ 0xF := by decide

theorem witness_TimersStayZero :
    hostOp .readMode State.reset = .next (.mode .ready, State.reset) ∧ State.reset.delay = 0 ∧ State.reset.sound = 0 ∧
    HostReachable State.reset := ⟨rfl, rfl, rfl, .constructed⟩

theorem witness_HostHasNoOtherMove :
    HostOp.load [0x60] ≠ .cycle ∧ HostOp.load [0x60] ≠ .construct ∧
    hostOp (.decrementTimer .delay) State.reset = .next (.nothing, State.reset.decrementTimer .delay) := ⟨by decide, by decide, rfl⟩

end Sys2Proof.Tests
end

section
/-! The timers take no part in a cycle (10_state.md R38): putting other timer values into a state commutes with `exec` and with `step`.
And what a fetch changes and leaves (R24). -/

namespace Sys2Proof.Machine

/-! ## The state with other timer values -/

/-- The state with the timer values `d` and `k`, everything else as it is. -/
def State.withTimers (s : State) (d k : Byte) : State := { s with delay := d, sound := k }

@[simp] theorem State.withTimers_stack (s : State) (d k : Byte) : (s.withTimers d k).stack = s.stack := rfl
@[simp] theorem State.withTimers_pc (s : State) (d k : Byte) : (s.withTimers d k).pc = s.pc := rfl
@[simp] theorem State.withTimers_mode (s : State) (d k : Byte) : (s.withTimers d k).mode = s.mode := rfl
@[simp] theorem State.withTimers_alive (s : State) (d k : Byte) : (s.withTimers d k).alive = s.alive := rfl
@[simp] theorem State.withTimers_wordAtPc (s : State) (d k : Byte) : (s.withTimers d k).wordAtPc = s.wordAtPc := rfl

theorem State.withTimers_setPc (s : State) (d k : Byte) (w : Word) : (s.withTimers d k).setPc w = (s.setPc w).withTimers d k := rfl
theorem State.withTimers_finishCycle (s : State) (d k : Byte) : (s.withTimers d k).finishCycle = s.finishCycle.withTimers d k := rfl

/-! ## Instructions and cycles with other timer values -/

/-- An instruction does the same with other timer values, and the timers keep them. An arm that branches reads its guard from the
stack or from I, so both states take the same branch. -/
theorem exec_withTimers {i : Instr} {s t : State} (h : exec i s = .next t) (d k : Byte) :
    exec i (s.withTimers d k) = .next (t.withTimers d k) := by
  cases i with
  | clearScreen | jump | setRegister | addToRegister | setIndex | unknownInstruction => cases h; rfl
  | stopSubroutine =>
    simp only [exec, execStopSubroutine, State.pop, State.withTimers_stack] at h ⊢
    cases hs : s.stack with
    | nil => rw [hs] at h; cases h; rfl
    | cons ret rest => rw [hs] at h; cases h; rfl
  | callSubroutine nnn =>
    simp only [exec, execCallSubroutine] at h
    by_cases hd : s.depth = config.stackCapacity
    · rw [if_pos hd] at h; cases h; exact if_pos hd
    · rw [if_neg hd] at h; cases h; exact if_neg hd
  | display x y n =>
    simp only [exec, execDisplay] at h
    by_cases hb : spriteInMemory s.index n = true
    · rw [if_pos hb] at h; cases h; exact if_pos hb
    · rw [if_neg hb] at h; cases h; exact if_neg hb

theorem State.alive_eq_false_iff (s : State) : s.alive = false ↔ ∃ e, s.mode = .faulted e := by
  cases h : s.mode <;> simp [State.alive, State.lastError, h]

/-- A cycle does the same with other timer values, and the timers keep them: the word at pc is the same, and so is what it does. -/
theorem step_withTimers {s t : State} (h : step s = .next t) (d k : Byte) :
    step (s.withTimers d k) = .next (t.withTimers d k) := by
  obtain ⟨ha, rfl⟩ | ⟨ha, hpc, u, hu, rfl⟩ := step_next_cases h
  · obtain ⟨e, he⟩ := (State.alive_eq_false_iff _).mp ha
    exact step_of_faulted (e := e) (by rw [State.withTimers_mode, he])
  · rw [step_of_alive (by rwa [State.withTimers_alive]) (by rwa [State.withTimers_pc]), State.withTimers_wordAtPc,
      State.withTimers_pc, State.withTimers_setPc, exec_withTimers hu, completeCycle, State.withTimers_finishCycle]

/-- Settles O44: other timer values commute with a cycle, and each timer operation names one field. -/
theorem noCycleReadsOrWritesATimer : Obligations.NoCycleReadsOrWritesATimer := by
  unfold Obligations.NoCycleReadsOrWritesATimer
  exact ⟨fun _ _ d k h => step_withTimers h d k, fun _ => ⟨rfl, rfl, rfl, rfl⟩⟩

/-! ## The fetch -/

/-- Settles O6: inside Memory the fetch answers the state with its pc advanced, and `setPc` leaves every other field. -/
theorem fetchAdvancesPcByTwoModulo4096 : Obligations.FetchAdvancesPcByTwoModulo4096 := by
  unfold Obligations.FetchAdvancesPcByTwoModulo4096
  intro s h
  have hpc : (s.setPc (advancePc s.pc)).pc.toNat = (s.pc.toNat + 2) % 4096 := by
    rw [State.setPc_pc, toNat_advancePc]
  exact ⟨s.wordAtPc, s.setPc (advancePc s.pc), State.fetch_ok h, hpc, State.readV_setPc s _, rfl, rfl, fun _ _ => rfl, ⟨rfl, rfl⟩,
    rfl, fun _ _ => rfl⟩

end Sys2Proof.Machine
end

section
/-! Decoding outside the six families: what is neither a literal nor under a family's top nibble is UnknownInstruction (30_encoding.md
R73, R78). -/

namespace Sys2Proof

/-- A word of the unknown space decodes to UnknownInstruction with that word: every other answer of the decoder contradicts one of
the numbers that place the word in the unknown space. -/
theorem decode_unknownInstruction {w : Word} (h : inUnknownSpace w = true) : decode w = .unknownInstruction w := by
  obtain ⟨nE0, nEE, n1, n2, n6, n7, nA, nD⟩ := (inUnknownSpace_iff w).mp h
  rcases decode_cases w with ⟨e, -⟩ | ⟨e, -⟩ | ⟨e, -⟩ | ⟨e, -⟩ | ⟨e, -⟩ | ⟨e, -⟩ | ⟨e, -⟩ | ⟨e, -⟩ | ⟨-, hd⟩
  · exact absurd (congrArg BitVec.toNat e) nE0
  · exact absurd (congrArg BitVec.toNat e) nEE
  · exact absurd e n1
  · exact absurd e n2
  · exact absurd e n6
  · exact absurd e n7
  · exact absurd e nA
  · exact absurd e nD
  · exact hd

/-- A word that is no literal, and whose top nibble names no family, lies in the unknown space (R78). -/
theorem inUnknownSpace_of_not_literal {w : Word} (h1 : w ≠ 0x00E0) (h2 : w ≠ 0x00EE)
    (h : w.toNat / 4096 ∉ [0x1, 0x2, 0x6, 0x7, 0xA, 0xD]) : inUnknownSpace w = true := by
  have nE0 : w.toNat ≠ 0xE0 := fun e => h1 (BitVec.eq_of_toNat_eq e)
  have nEE : w.toNat ≠ 0xEE := fun e => h2 (BitVec.eq_of_toNat_eq e)
  rw [inUnknownSpace_iff]
  exact ⟨nE0, nEE, by simpa using h⟩

end Sys2Proof

namespace Sys2Proof.Machine

/-- Settles O2: one decoding lemma per top nibble, with the operands as numbers, and the unknown space for what is left. -/
theorem decodeByLiteralThenTopNibble : Obligations.DecodeByLiteralThenTopNibble := by
  unfold Obligations.DecodeByLiteralThenTopNibble
  refine ⟨by decide, by decide, fun w h1 h2 => ⟨?jump, ?call, ?setRegister, ?addToRegister, ?setIndex, ?display, ?unknown⟩⟩
  case jump => exact fun h => ⟨_, decode_jump h, toNat_fieldNnn w⟩
  case call => exact fun h => ⟨_, decode_callSubroutine h, toNat_fieldNnn w⟩
  case setRegister => exact fun h => ⟨_, _, decode_setRegister h, val_fieldX w, toNat_fieldKk w⟩
  case addToRegister => exact fun h => ⟨_, _, decode_addToRegister h, val_fieldX w, toNat_fieldKk w⟩
  case setIndex => exact fun h => ⟨_, decode_setIndex h, toNat_fieldNnn w⟩
  case display => exact fun h => ⟨_, _, _, decode_display h, val_fieldX w, val_fieldY w, val_fieldN w⟩
  case unknown => exact fun h => decode_unknownInstruction (inUnknownSpace_of_not_literal h1 h2 h)

end Sys2Proof.Machine
end

section
/-! Control flow: the words of a family by the mask of its row (30_encoding.md R75), and what Jump does (41_control_flow.md R100). -/

namespace Sys2Proof

/-- A word that the mask 0xF000 takes to `k * 0x1000` has the top nibble `k`. -/
theorem topNibble_of_and_topMask {w c : Word} {k : Nat} (h : w &&& 0xF000 = c) (hc : c.toNat = k * 4096) :
    w.toNat / 4096 = k := by
  have hw : w.toNat / 4096 * 4096 = k * 4096 := by rw [← toNat_and_topMask, h, hc]
  omega

end Sys2Proof

namespace Sys2Proof.Machine

/-- Jump never branches: its next state is the state with pc set to the zero-extended address. -/
theorem exec_jump (nnn : Addr) (s : State) : exec (.jump nnn) s = .next (s.setPc (zextAddr nnn)) := rfl

/-- Settles O23: the mask fixes the top nibble that `decode` reads, and `setPc` leaves every field but pc. -/
theorem jumpSetsPcToItsAddress : Obligations.JumpSetsPcToItsAddress := by
  unfold Obligations.JumpSetsPcToItsAddress
  refine ⟨fun w h => decode_jump (topNibble_of_and_topMask h rfl), fun nnn s => ?_⟩
  have hpc : (s.setPc (zextAddr nnn)).pc.toNat = nnn.toNat := by rw [State.setPc_pc, toNat_zextAddr]
  exact ⟨s.setPc (zextAddr nnn), exec_jump nnn s, hpc, State.readV_setPc s _, rfl, rfl, fun _ _ => rfl, ⟨rfl, rfl⟩, rfl,
    fun _ _ => rfl⟩

end Sys2Proof.Machine
end

section
/-! The register instructions (42_register.md R110 to R112): what SetRegister, AddToRegister and SetIndex write, and what they leave. -/

namespace Sys2Proof.Machine

/-! ## The next state of each -/

theorem exec_setRegister (x : RegNum) (kk : Byte) (s : State) : exec (.setRegister x kk) s = .next (s.writeV x kk) := rfl

theorem exec_addToRegister (x : RegNum) (kk : Byte) (s : State) :
    exec (.addToRegister x kk) s = .next (s.writeV x (BitVec.ofNat 8 (((s.readV x).toNat + kk.toNat) % 256))) := rfl

theorem exec_setIndex (nnn : Addr) (s : State) : exec (.setIndex nnn) s = .next (s.setIndex (zextAddr nnn)) := rfl

/-- A register write leaves every other register and every other part of the state. -/
theorem State.writeV_frame (s : State) (x : RegNum) (b : Byte) :
    (∀ r, r ≠ x → (s.writeV x b).readV r = s.readV r) ∧ (s.writeV x b).index = s.index ∧ (s.writeV x b).pc = s.pc ∧
    (s.writeV x b).stack = s.stack ∧ samePixels s (s.writeV x b) ∧ sameTimers s (s.writeV x b) ∧
    (s.writeV x b).mode = s.mode ∧ sameMemory s (s.writeV x b) :=
  ⟨fun _ h => s.readV_writeV_other h.symm b, rfl, rfl, rfl, fun _ _ => rfl, ⟨rfl, rfl⟩, rfl, fun _ _ => rfl⟩

/-! ## The statements -/

/-- Settles O29: the mask fixes the top nibble that `decode` reads, and the next state is one register write. -/
theorem setRegisterWritesItsRegister : Obligations.SetRegisterWritesItsRegister := by
  unfold Obligations.SetRegisterWritesItsRegister
  refine ⟨fun w h => decode_setRegister (topNibble_of_and_topMask h rfl), fun x kk s => ?_⟩
  exact ⟨s.writeV x kk, exec_setRegister x kk s, s.readV_writeV_same x kk, s.writeV_frame x kk⟩

/-- Settles O30: the next state is one register write, of the sum reduced modulo 256, so no carry reaches VF. -/
theorem addToRegisterWrapsAndRecordsNoCarry : Obligations.AddToRegisterWrapsAndRecordsNoCarry := by
  unfold Obligations.AddToRegisterWrapsAndRecordsNoCarry
  refine ⟨fun w h => decode_addToRegister (topNibble_of_and_topMask h rfl), fun x kk s => ?_⟩
  refine ⟨_, exec_addToRegister x kk s, ?sum, s.writeV_frame x _⟩
  case sum => rw [State.readV_writeV_same, BitVec.toNat_ofNat, Nat.mod_mod]

/-- Settles O31: I becomes the zero-extended address, which lies inside Memory, and `setIndex` leaves every field but I. -/
theorem setIndexStoresItsAddress : Obligations.SetIndexStoresItsAddress := by
  unfold Obligations.SetIndexStoresItsAddress
  refine ⟨fun w h => decode_setIndex (topNibble_of_and_topMask h rfl), fun nnn s => ?_⟩
  exact ⟨s.setIndex (zextAddr nnn), exec_setIndex nnn s, toNat_zextAddr nnn, zextAddr_lt nnn, s.readV_setIndex _, rfl, rfl,
    fun _ _ => rfl, ⟨rfl, rfl⟩, rfl, fun _ _ => rfl⟩

end Sys2Proof.Machine
end

section
/-! The display instructions (43_display.md R120, R121, R124, R127): what ClearScreen and an in-bounds Display make of every pixel. -/

namespace Sys2Proof.Machine

/-! ## ClearScreen -/

/-- ClearScreen never branches: its next state is the state with the cleared frame buffer. -/
theorem exec_clearScreen (s : State) : exec .clearScreen s = .next (s.setFb FrameBuffer.clear) := rfl

/-- Settles O32: the next state is one frame-buffer write, of the buffer whose pixels are all OFF, and `setFb` leaves every other field. -/
theorem clearScreenTurnsEveryPixelOff : Obligations.ClearScreenTurnsEveryPixelOff := by
  unfold Obligations.ClearScreenTurnsEveryPixelOff
  refine ⟨by decide, fun s => ?_⟩
  have hpix : ∀ X Y, (s.setFb FrameBuffer.clear).pixel X Y = false := fun X Y => by
    rw [State.pixel_setFb, FrameBuffer.pixel_clear]
  exact ⟨s.setFb FrameBuffer.clear, exec_clearScreen s, hpix, s.readV_setFb _, rfl, rfl, rfl, ⟨rfl, rfl⟩, rfl, fun _ _ => rfl⟩

/-! ## Display in bounds -/

/-- With the sprite inside Memory, Display takes the branch that draws (R122). -/
theorem exec_display_inBounds {s : State} {n : RowCount} (h : s.index.toNat + n.val ≤ memSize) (x y : RegNum) :
    exec (.display x y n) s = .next (s.drawn x y n) :=
  if_pos (decide_eq_true h)

/-- The bits that Display places are ON exactly where R121, R124 and R127 put the sprite: row Y - y0 is the byte at I + (Y - y0),
and its column X - x0 is bit 7 - (X - x0). -/
theorem State.litAt_placeSprite_spriteRows (s : State) (x y : RegNum) (n : RowCount) (X : Fin 64) (Y : Fin 32) :
    litAt (placeSprite (originX (s.readV x)) (originY (s.readV y)) (s.spriteRows n)) X Y = s.spriteOn x y n X Y := by
  rw [Bool.eq_iff_iff, litAt_placeSprite]
  simp only [State.spriteOn, State.spriteRows, originX, originY, Memory.length_readBytes, Memory.getElem_readBytes,
    Bool.and_eq_true, decide_eq_true_eq]
  constructor
  · rintro ⟨hy, hx, hx8, hrow, hbit⟩
    refine ⟨⟨hy, by omega, hx, hx8⟩, ?_⟩
    rwa [spriteBit_eq _ (by omega)] at hbit
  · rintro ⟨⟨hy, hyn, hx, hx8⟩, hbit⟩
    refine ⟨hy, hx, hx8, by omega, ?_⟩
    rwa [spriteBit_eq _ (by omega)]

/-- Every pixel after a drawn sprite: no two placed bits share a pixel, so each pixel is XORed once. -/
theorem State.pixel_drawn (s : State) (x y : RegNum) (n : RowCount) (X : Fin 64) (Y : Fin 32) :
    (s.drawn x y n).pixel X Y = (s.pixel X Y ^^ s.spriteOn x y n X Y) := by
  rw [State.pixel_setCollision, State.pixel_setFb, FrameBuffer.pixel_drawBits _ (placeSprite_distinct _ _ _),
    State.litAt_placeSprite_spriteRows, State.pixel]

/-- Settles O33: in bounds the next state is the drawn one, whose pixels are those before XORed with the sprite. -/
theorem displayXorsTheSpriteAtTheReducedOrigin : Obligations.DisplayXorsTheSpriteAtTheReducedOrigin := by
  unfold Obligations.DisplayXorsTheSpriteAtTheReducedOrigin
  exact fun x y n s h => ⟨s.drawn x y n, exec_display_inBounds h x y, s.pixel_drawn x y n⟩

end Sys2Proof.Machine
end

section
/-! The load-time errors (60_exceptions.md R141): a rejected load answers its error with the state it was given. -/

namespace Sys2Proof.Machine

/-- Settles O50: the length is tested before any byte is copied, once for no bytes and once for too many, and each test answers its
error beside the state unchanged. -/
theorem rejectedLoadChangesNothing : Obligations.RejectedLoadChangesNothing := by
  unfold Obligations.RejectedLoadChangesNothing
  refine fun src s => ⟨fun hempty => ?_, fun hlarge => load_tooLarge hlarge s⟩
  rw [List.eq_nil_of_length_eq_zero hempty]
  exact load_empty s

end Sys2Proof.Machine
end

section
/-! The successful load (70_reset_and_hazards.md R174): the bytes it writes at 0x200 upward, and everything else left as it is. -/

namespace Sys2Proof.Machine

/-! ## The bytes of Memory after the copy -/

/-- Inside the copied run, each address holds the program's byte. -/
theorem State.read_copyProgram_inside {s : State} (hm : s.mem.wf) (src : List Byte) {k : Nat} (h : k < src.length) :
    (s.copyProgram src).mem.read (progBase + k) = src[k] := by
  have hin : progBase ≤ progBase + k ∧ progBase + k < progBase + src.length := by omega
  rw [State.copyProgram_mem, Memory.read_writeBytes hm.1, dif_pos hin]
  simp only [Nat.add_sub_cancel_left]

/-- Below and above the copied run, each address holds what it held. -/
theorem State.read_copyProgram_outside {s : State} (hm : s.mem.wf) (src : List Byte) {a : Nat}
    (h : a < progBase ∨ progBase + src.length ≤ a) : (s.copyProgram src).mem.read a = s.mem.read a := by
  have hout : ¬(progBase ≤ a ∧ a < progBase + src.length) := by omega
  rw [State.copyProgram_mem, Memory.read_writeBytes hm.1, dif_neg hout]

/-! ## The frame of the copy -/

/-- Copying a program leaves pc, I, the registers, the stack, the pixels and the timers. -/
theorem State.copyProgram_frame (s : State) (src : List Byte) :
    (s.copyProgram src).pc = s.pc ∧ (s.copyProgram src).index = s.index ∧ sameRegisters s (s.copyProgram src) ∧
    (s.copyProgram src).stack = s.stack ∧ samePixels s (s.copyProgram src) ∧ sameTimers s (s.copyProgram src) :=
  ⟨rfl, rfl, fun _ => rfl, rfl, fun _ _ => rfl, ⟨rfl, rfl⟩⟩

/-- Settles O48: a load of an accepted length answers the state with the program copied; its bytes are read inside and outside the
copied run, and the copy's frame gives the rest. -/
theorem loadWritesTheProgramAreaOnly : Obligations.LoadWritesTheProgramAreaOnly := by
  unfold Obligations.LoadWritesTheProgramAreaOnly
  intro src s hm hmin hmax
  have hload : load src s = (.ok, s.copyProgram src) := load_accepted (List.ne_nil_of_length_pos hmin) hmax s
  exact ⟨s.copyProgram src, hload, fun _ h => State.read_copyProgram_inside hm src h,
    fun _ _ h => State.read_copyProgram_outside hm src h, s.copyProgram_frame src⟩

end Sys2Proof.Machine
end

section
/-! Decoder and encoder are inverse to each other on the well-formed instructions (30_encoding.md R80), and the table of masks and matches
says what the decoder does (R75). -/

namespace Sys2Proof

/-! ## Decoding what was encoded -/

/-- Decoding an encoded instruction gives it back: its word has its family's top nibble, and every field of the word is the operand. -/
theorem decode_encode {i : Instr} (h : i.wellFormed = true) : decode (encode i) = i := by
  cases i with
  | clearScreen => decide
  | stopSubroutine => decide
  | jump a =>
    have hw := toNat_encode_jump a
    rw [decode_jump (by omega)]
    exact congrArg Instr.jump (BitVec.eq_of_toNat_eq (by rw [toNat_fieldNnn]; omega))
  | callSubroutine a =>
    have hw := toNat_encode_callSubroutine a
    rw [decode_callSubroutine (by omega)]
    exact congrArg Instr.callSubroutine (BitVec.eq_of_toNat_eq (by rw [toNat_fieldNnn]; omega))
  | setIndex a =>
    have hw := toNat_encode_setIndex a
    rw [decode_setIndex (by omega)]
    exact congrArg Instr.setIndex (BitVec.eq_of_toNat_eq (by rw [toNat_fieldNnn]; omega))
  | setRegister x k =>
    have hw := toNat_encode_setRegister x k
    rw [decode_setRegister (by omega)]
    exact congrArg₂ Instr.setRegister (Fin.ext (by rw [val_fieldX]; omega)) (BitVec.eq_of_toNat_eq (by rw [toNat_fieldKk]; omega))
  | addToRegister x k =>
    have hw := toNat_encode_addToRegister x k
    rw [decode_addToRegister (by omega)]
    exact congrArg₂ Instr.addToRegister (Fin.ext (by rw [val_fieldX]; omega)) (BitVec.eq_of_toNat_eq (by rw [toNat_fieldKk]; omega))
  | display x y n =>
    have hw := toNat_encode_display x y n
    have hx : fieldX (encode (.display x y n)) = x := Fin.ext (by rw [val_fieldX]; omega)
    have hy : fieldY (encode (.display x y n)) = y := Fin.ext (by rw [val_fieldY]; omega)
    have hn : fieldN (encode (.display x y n)) = n := Fin.ext (by rw [val_fieldN]; omega)
    rw [decode_display (by omega), hx, hy, hn]
  | unknownInstruction raw => exact decode_unknownInstruction h

/-- Decoding bytes reads the word of the first two and hands back the rest; an encoding's two bytes are those of its word (R70). -/
theorem decodeBytes_encodeBytes (i : Instr) (rest : List Byte) :
    decodeBytes (encodeBytes i ++ rest) = .ok (decode (encode i), rest) := by
  have hcut : decodeBytes (encodeBytes i ++ rest) =
      .ok (decode (wordOfBytes (highByte (encode i)) (lowByte (encode i))), rest) := rfl
  rw [hcut, wordOfBytes_high_low]

/-! ## Encoding what was decoded -/

/-- Encoding what was decoded gives the word back: the top nibble and the fields make up the whole word. -/
theorem encode_decode (w : Word) : encode (decode w) = w := by
  obtain ⟨e, hd⟩ | ⟨e, hd⟩ | ⟨hk, hd⟩ | ⟨hk, hd⟩ | ⟨hk, hd⟩ | ⟨hk, hd⟩ | ⟨hk, hd⟩ | ⟨hk, hd⟩ | ⟨-, hd⟩ := decode_cases w <;> rw [hd]
  · exact e.symm
  · exact e.symm
  · exact BitVec.eq_of_toNat_eq (by rw [toNat_encode_jump, toNat_fieldNnn]; omega)
  · exact BitVec.eq_of_toNat_eq (by rw [toNat_encode_callSubroutine, toNat_fieldNnn]; omega)
  · exact BitVec.eq_of_toNat_eq (by rw [toNat_encode_setRegister, val_fieldX, toNat_fieldKk]; omega)
  · exact BitVec.eq_of_toNat_eq (by rw [toNat_encode_addToRegister, val_fieldX, toNat_fieldKk]; omega)
  · exact BitVec.eq_of_toNat_eq (by rw [toNat_encode_setIndex, toNat_fieldNnn]; omega)
  · exact BitVec.eq_of_toNat_eq (by rw [toNat_encode_display, val_fieldX, val_fieldY, val_fieldN]; omega)
  · rfl

/-- Decoding gives well-formed instructions: only UnknownInstruction is checked, and it is decoded from the unknown space alone. -/
theorem wellFormed_decode (w : Word) : (decode w).wellFormed = true := by
  obtain ⟨-, hd⟩ | ⟨-, hd⟩ | ⟨-, hd⟩ | ⟨-, hd⟩ | ⟨-, hd⟩ | ⟨-, hd⟩ | ⟨-, hd⟩ | ⟨-, hd⟩ | ⟨hu, hd⟩ := decode_cases w <;> rw [hd]
  exacts [rfl, rfl, rfl, rfl, rfl, rfl, rfl, rfl, hu]

/-! ## The opcode table -/

/-- The mask 0xFFFF of a literal's row selects the literal alone. -/
theorem selects_literal_iff (v : Variant) (p w : Word) : (OpcodeRow.mk v p 0xFFFF).selects w = true ↔ w = p := by
  have hmask : w &&& 0xFFFF = w := BitVec.and_allOnes
  rw [OpcodeRow.selects, hmask, beq_iff_eq]

/-- The mask 0xF000 of a family's row selects the words with its top nibble. -/
theorem selects_family_iff (v : Variant) {p : Word} {k : Nat} (hp : p.toNat = k * 4096) (w : Word) :
    (OpcodeRow.mk v p 0xF000).selects w = true ↔ w.toNat / 4096 = k := by
  rw [OpcodeRow.selects, beq_iff_eq, ← BitVec.toNat_inj, toNat_and_topMask, hp]
  omega

/-- A word that a row selects decodes to the row's variant. -/
theorem variant_decode_of_selects {r : OpcodeRow} (hr : r ∈ opcodeRows) {w : Word} (h : r.selects w = true) :
    (decode w).variant = r.variant := by
  simp only [opcodeRows, List.mem_cons, List.not_mem_nil, or_false] at hr
  obtain rfl | rfl | rfl | rfl | rfl | rfl | rfl | rfl := hr
  · rw [(selects_literal_iff _ _ w).mp h]; decide
  · rw [(selects_literal_iff _ _ w).mp h]; decide
  · rw [decode_jump ((selects_family_iff _ rfl w).mp h)]; rfl
  · rw [decode_callSubroutine ((selects_family_iff _ rfl w).mp h)]; rfl
  · rw [decode_setRegister ((selects_family_iff _ rfl w).mp h)]; rfl
  · rw [decode_addToRegister ((selects_family_iff _ rfl w).mp h)]; rfl
  · rw [decode_setIndex ((selects_family_iff _ rfl w).mp h)]; rfl
  · rw [decode_display ((selects_family_iff _ rfl w).mp h)]; rfl

/-- A word that decodes to a variant other than UnknownInstruction is selected by a row of that variant. -/
theorem exists_row_selects (w : Word) (h : (decode w).variant ≠ .unknownInstruction) :
    ∃ r ∈ opcodeRows, r.variant = (decode w).variant ∧ r.selects w = true := by
  obtain ⟨e, hd⟩ | ⟨e, hd⟩ | ⟨hk, hd⟩ | ⟨hk, hd⟩ | ⟨hk, hd⟩ | ⟨hk, hd⟩ | ⟨hk, hd⟩ | ⟨hk, hd⟩ | ⟨-, hd⟩ := decode_cases w <;> rw [hd] at h ⊢
  · exact ⟨⟨.clearScreen, 0x00E0, 0xFFFF⟩, by decide, rfl, (selects_literal_iff _ _ w).mpr e⟩
  · exact ⟨⟨.stopSubroutine, 0x00EE, 0xFFFF⟩, by decide, rfl, (selects_literal_iff _ _ w).mpr e⟩
  · exact ⟨⟨.jump, 0x1000, 0xF000⟩, by decide, rfl, (selects_family_iff _ rfl w).mpr hk⟩
  · exact ⟨⟨.callSubroutine, 0x2000, 0xF000⟩, by decide, rfl, (selects_family_iff _ rfl w).mpr hk⟩
  · exact ⟨⟨.setRegister, 0x6000, 0xF000⟩, by decide, rfl, (selects_family_iff _ rfl w).mpr hk⟩
  · exact ⟨⟨.addToRegister, 0x7000, 0xF000⟩, by decide, rfl, (selects_family_iff _ rfl w).mpr hk⟩
  · exact ⟨⟨.setIndex, 0xA000, 0xF000⟩, by decide, rfl, (selects_family_iff _ rfl w).mpr hk⟩
  · exact ⟨⟨.display, 0xD000, 0xF000⟩, by decide, rfl, (selects_family_iff _ rfl w).mpr hk⟩
  · exact absurd rfl h

/-- No row stands for UnknownInstruction, and no two rows for the same variant. -/
theorem opcodeRows_variants :
    (∀ r ∈ opcodeRows, r.variant ≠ .unknownInstruction) ∧ ∀ r ∈ opcodeRows, ∀ q ∈ opcodeRows, r.variant = q.variant → r = q := by
  decide

/-- A row of the table selects exactly the words that decode to its variant (R75). -/
theorem selects_iff_variant_decode {r : OpcodeRow} (hr : r ∈ opcodeRows) (w : Word) :
    r.selects w = true ↔ (decode w).variant = r.variant := by
  refine ⟨variant_decode_of_selects hr, fun hv => ?_⟩
  obtain ⟨hknown, hunique⟩ := opcodeRows_variants
  obtain ⟨q, hq, hqv, hsel⟩ := exists_row_selects w (hv ▸ hknown r hr)
  rwa [hunique r hr q hq (by rw [hqv, hv])]

end Sys2Proof

namespace Sys2Proof.Machine

/-- Settles O3: every operand is read back from the encoded word, and the two bytes of an encoding are those of its word. -/
theorem decodeOfEncodeIsTheInstruction : Obligations.DecodeOfEncodeIsTheInstruction := by
  unfold Obligations.DecodeOfEncodeIsTheInstruction
  intro i h
  have hdec := decode_encode h
  exact ⟨hdec, fun rest => by rw [decodeBytes_encodeBytes, hdec]⟩

/-- Settles O4: every answer of the decoder keeps all sixteen bits of the word, and its UnknownInstruction lies in the unknown space. -/
theorem encodeOfDecodeIsTheWord : Obligations.EncodeOfDecodeIsTheWord := by
  unfold Obligations.EncodeOfDecodeIsTheWord
  exact fun w => ⟨encode_decode w, wellFormed_decode w⟩

/-- Settles O5: a row's mask and match say what the decoder tests, and every decoded variant but UnknownInstruction has a row. -/
theorem opcodeTableSelectsTheVariant : Obligations.OpcodeTableSelectsTheVariant := by
  unfold Obligations.OpcodeTableSelectsTheVariant
  refine fun w => ⟨fun r hr => selects_iff_variant_decode hr w, fun hu r hr => ?_, fun hnone => ?_⟩
  · rw [← Bool.not_eq_true, selects_iff_variant_decode hr, hu]
    exact (opcodeRows_variants.1 r hr).symm
  · by_contra hknown
    obtain ⟨r, hr, -, hsel⟩ := exists_row_selects w hknown
    exact Bool.false_ne_true ((hnone r hr).symm.trans hsel)

/-- Settles O1: nine fixed words, each decoded by evaluation. -/
theorem decodeOfTheSpecsWords : Obligations.DecodeOfTheSpecsWords := by
  unfold Obligations.DecodeOfTheSpecsWords
  decide

end Sys2Proof.Machine
end

section
/-! The execution-time errors (60_exceptions.md R140, R143, R145): what causes each, and what an instruction does when there is a cause
and when there is none. -/

namespace Sys2Proof.Machine

/-! ## The next state of the instructions that branch -/

/-- Executing an UnknownInstruction never branches: the policy is hard-fail (D1). -/
theorem exec_unknownInstruction (raw : Word) (s : State) :
    exec (.unknownInstruction raw) s = .next (s.raise (.unsupportedOpcode raw)) := rfl

/-- At any depth but the capacity, CallSubroutine takes the branch that pushes. -/
theorem exec_callSubroutine_push {s : State} (h : s.depth ≠ 256) (nnn : Addr) :
    exec (.callSubroutine nnn) s = .next ((s.push s.pc).setPc (zextAddr nnn)) :=
  if_neg h

/-- At capacity, CallSubroutine takes the branch that raises StackOverflow. -/
theorem exec_callSubroutine_full {s : State} (h : s.depth = 256) (nnn : Addr) :
    exec (.callSubroutine nnn) s = .next (s.raise (.stackOverflow s.pc)) :=
  if_pos h

/-- With an entry on the stack, StopSubroutine pops it into pc. -/
theorem exec_stopSubroutine_pop {s : State} {ret : Word} {rest : List Word} (h : s.stack = ret :: rest) :
    exec .stopSubroutine s = .next { s with stack := rest, pc := ret } := by
  have hpop : s.pop = some (ret, { s with stack := rest }) := by rw [State.pop, h]
  rw [exec, execStopSubroutine, hpop]
  rfl

/-- On an empty stack, StopSubroutine raises StackUnderflow. -/
theorem exec_stopSubroutine_empty {s : State} (h : s.stack = []) : exec .stopSubroutine s = .next (s.raise .stackUnderflow) := by
  rw [exec, execStopSubroutine, State.pop_eq_none.mpr h]

/-- With the sprite not inside Memory, Display takes the branch that raises MemoryOutOfBounds (R122). -/
theorem exec_display_outOfBounds {s : State} {n : RowCount} (h : memSize < s.index.toNat + n.val) (x y : RegNum) :
    exec (.display x y n) s = .next (s.raise (.memoryOutOfBounds s.index n)) :=
  if_neg fun hin => absurd (of_decide_eq_true hin) (Nat.not_le.mpr h)

theorem State.depth_eq_zero_iff (s : State) : s.depth = 0 ↔ s.stack = [] := List.length_eq_zero_iff

/-! ## The causes -/

/-- `e` is the error that executing `i` on `s` raises: the four causes of R145, with what each error records (R140, D16). -/
def RaisesOn (i : Instr) (s : State) (e : Error) : Prop :=
  (∃ nnn, i = .callSubroutine nnn ∧ s.depth = 256 ∧ e = .stackOverflow s.pc) ∨
  (i = .stopSubroutine ∧ s.depth = 0 ∧ e = .stackUnderflow) ∨
  (∃ x y n, i = .display x y n ∧ 4096 < s.index.toNat + n.val ∧ e = .memoryOutOfBounds s.index n) ∨
  (∃ raw, i = .unknownInstruction raw ∧ e = .unsupportedOpcode raw)

/-- Where there is a cause, the next state is the state with the error raised, and nothing else (R143). -/
theorem exec_of_raisesOn {i : Instr} {s : State} {e : Error} (h : RaisesOn i s e) : exec i s = .next (s.raise e) := by
  obtain ⟨nnn, rfl, hd, rfl⟩ | ⟨rfl, hd, rfl⟩ | ⟨x, y, n, rfl, hb, rfl⟩ | ⟨raw, rfl, rfl⟩ := h
  · exact exec_callSubroutine_full hd nnn
  · exact exec_stopSubroutine_empty (s.depth_eq_zero_iff.mp hd)
  · exact exec_display_outOfBounds hb x y
  · exact exec_unknownInstruction raw s

/-- An instruction either has a cause and raises its error, or keeps the mode. -/
theorem exec_raises_or_keeps_mode {i : Instr} {s t : State} (h : exec i s = .next t) :
    (∃ e, RaisesOn i s e ∧ t = s.raise e) ∨ t.mode = s.mode := by
  obtain ⟨rfl, rfl⟩ | ⟨rfl, hs, rfl⟩ | ⟨rfl, ret, rest, hs, rfl⟩ | ⟨nnn, rfl, rfl⟩ | ⟨nnn, rfl, hd, rfl⟩ | ⟨nnn, rfl, hd, rfl⟩ |
    ⟨x, kk, rfl, rfl⟩ | ⟨x, kk, rfl, rfl⟩ | ⟨nnn, rfl, rfl⟩ | ⟨x, y, n, rfl, hb, rfl⟩ | ⟨x, y, n, rfl, hb, rfl⟩ | ⟨raw, rfl, rfl⟩ :=
    exec_next_cases h
  · exact .inr rfl
  · exact .inl ⟨_, .inr (.inl ⟨rfl, s.depth_eq_zero_iff.mpr hs, rfl⟩), rfl⟩
  · exact .inr rfl
  · exact .inr rfl
  · exact .inl ⟨_, .inl ⟨nnn, rfl, hd, rfl⟩, rfl⟩
  · exact .inr rfl
  · exact .inr rfl
  · exact .inr rfl
  · exact .inr rfl
  · exact .inr rfl
  · exact .inl ⟨_, .inr (.inr (.inl ⟨x, y, n, rfl, hb, rfl⟩)), rfl⟩
  · exact .inl ⟨_, .inr (.inr (.inr ⟨raw, rfl, rfl⟩)), rfl⟩

/-- Every error that an instruction raises is an execution-time one. -/
theorem isExecutionTime_of_raisesOn {i : Instr} {s : State} {e : Error} (h : RaisesOn i s e) : e.isExecutionTime = true := by
  obtain ⟨_, _, _, rfl⟩ | ⟨_, _, rfl⟩ | ⟨_, _, _, _, _, rfl⟩ | ⟨_, _, rfl⟩ := h <;> rfl

/-- Settles O13: on a block that executes, a recorded error is not the mode kept, so it was raised by its cause; and a cause fixes the
next state. -/
theorem eachErrorHasItsOneCause : Obligations.EachErrorHasItsOneCause := by
  unfold Obligations.EachErrorHasItsOneCause
  intro i s t e ha h
  refine ⟨fun hm => ?_, fun hcause => ?_⟩
  · obtain ⟨e', hcause, rfl⟩ | hkeep := exec_raises_or_keeps_mode h
    · have he : e' = e := Mode.faulted.inj hm
      exact he ▸ hcause
    · exact absurd (hkeep.symm.trans hm) (s.alive_iff.mp ha e)
  · have ht : t = s.raise e := Host.Outcome.next.inj (h.symm.trans (exec_of_raisesOn hcause))
    rw [ht, State.raise_mode]

/-! ## Each cause on its own -/

/-- Settles O25: the equality test of R101 at capacity. -/
theorem callAtCapacityOverflows : Obligations.CallAtCapacityOverflows := by
  unfold Obligations.CallAtCapacityOverflows
  exact fun nnn s h => exec_callSubroutine_full h nnn

/-- Settles O27: a depth of 0 is an empty stack, which has nothing to pop. -/
theorem returnOnAnEmptyStackUnderflows : Obligations.ReturnOnAnEmptyStackUnderflows := by
  unfold Obligations.ReturnOnAnEmptyStackUnderflows
  exact fun s h => exec_stopSubroutine_empty (s.depth_eq_zero_iff.mp h)

/-- Settles O36: the bound is tested before any write, so its failing branch raises on the state as it was. -/
theorem displayOutOfBoundsFaults : Obligations.DisplayOutOfBoundsFaults := by
  unfold Obligations.DisplayOutOfBoundsFaults
  exact fun x y n s h => exec_display_outOfBounds h x y

/-- Settles O41: the unknown space decodes to UnknownInstruction, whose execution raises under the policy hard-fail. -/
theorem unknownInstructionRaisesUnsupportedOpcode : Obligations.UnknownInstructionRaisesUnsupportedOpcode := by
  unfold Obligations.UnknownInstructionRaisesUnsupportedOpcode
  exact ⟨fun _ h => decode_unknownInstruction h, exec_unknownInstruction⟩

/-! ## Call and return where nothing is raised -/

/-- Settles O24: the mask fixes the top nibble that `decode` reads, and off capacity one push and one write of pc are all. -/
theorem callPushesTheReturnAddress : Obligations.CallPushesTheReturnAddress := by
  unfold Obligations.CallPushesTheReturnAddress
  refine ⟨fun w h => decode_callSubroutine (topNibble_of_and_topMask h rfl), fun nnn s hd => ?_⟩
  exact ⟨_, exec_callSubroutine_push hd nnn, rfl, toNat_zextAddr nnn, fun _ => rfl, rfl, fun _ _ => rfl, ⟨rfl, rfl⟩, rfl,
    fun _ _ => rfl⟩

/-- Settles O26: the popped entry is the head of the stack, and the next state differs in pc and stack alone. -/
theorem returnPopsThePcOffTheStack : Obligations.ReturnPopsThePcOffTheStack := by
  unfold Obligations.ReturnPopsThePcOffTheStack
  refine ⟨by decide, fun s ret rest hs => ?_⟩
  exact ⟨_, exec_stopSubroutine_pop hs, rfl, rfl, fun _ => rfl, rfl, fun _ _ => rfl, ⟨rfl, rfl⟩, rfl, fun _ _ => rfl⟩

end Sys2Proof.Machine
end

section
/-! The cycle (40_cycle.md R90 to R97): the fetch as numbers, the mode a cycle ends in, and what is said of every cycle. -/

namespace Sys2Proof.Machine

/-! ## The fetched word -/

theorem State.toNat_wordAtPc (s : State) :
    s.wordAtPc.toNat = (s.mem.read s.pc.toNat).toNat * 256 + (s.mem.read ((s.pc.toNat + 1) % 4096)).toNat :=
  toNat_wordOfBytes _ _

/-- Where the two bytes at pc are those of a word, that word is fetched. -/
theorem State.wordAtPc_of_bytes {s : State} {w : Word} (hi : s.mem.read s.pc.toNat = highByte w)
    (lo : s.mem.read ((s.pc.toNat + 1) % 4096) = lowByte w) : s.wordAtPc = w := by
  rw [State.wordAtPc, hi, lo, wordOfBytes_high_low]

/-- Settles O7: inside Memory the fetch answers the word at pc, whose high byte stands first. -/
theorem fetchReadsTheWordFirstByteHigh : Obligations.FetchReadsTheWordFirstByteHigh := by
  unfold Obligations.FetchReadsTheWordFirstByteHigh
  exact fun s h => ⟨s.wordAtPc, _, State.fetch_ok h, s.toNat_wordAtPc⟩

/-- Settles O8: the fetch alone stops, at an address that Memory has not. -/
theorem fetchOutsideMemoryStopsByName : Obligations.FetchOutsideMemoryStopsByName := by
  unfold Obligations.FetchOutsideMemoryStopsByName
  exact fun s ha h => step_of_no_address ha (Nat.not_lt.mpr h)

/-! ## The mode at the end of a cycle -/

/-- The end of a cycle makes a block that executes Running, and keeps a fault record. -/
theorem State.finishCycle_eq (s : State) : s.finishCycle = { s with mode := if s.alive then .running else s.mode } := by
  cases hm : s.mode <;> simp [State.finishCycle, State.setMode, Mode.afterCycle, State.alive, State.lastError, hm]

theorem State.finishCycle_of_alive {s : State} (h : s.alive = true) : s.finishCycle = s.setMode .running := by
  rw [State.finishCycle_eq, if_pos h, State.setMode]

/-- A raised error passes the end of the cycle. -/
theorem State.finishCycle_raise (s : State) (e : Error) : (s.raise e).finishCycle = s.raise e := rfl

theorem State.cycleResult_of_faulted {s : State} {e : Error} (h : s.mode = .faulted e) : s.cycleResult = .err e := by
  rw [State.cycleResult, State.lastError, h]

theorem State.cycleResult_of_running {s : State} (h : s.mode = .running) : s.cycleResult = .ok := by
  rw [State.cycleResult, State.lastError, h]

/-- A cycle answers what the next state of its step records. -/
theorem cycle_of_step {s t : State} (h : step s = .next t) : cycle s = .next (t.cycleResult, t) := by
  rw [cycle, h]

/-- Settles O9: the two bytes at pc are those `step` decodes, and the end of the cycle writes the mode. -/
theorem stepRunsTheDecodedInstruction : Obligations.StepRunsTheDecodedInstruction := by
  unfold Obligations.StepRunsTheDecodedInstruction
  intro s i ha hpc hdec
  have hi : decode s.wordAtPc = i := (Prod.mk.inj (Except.ok.inj hdec)).1
  have hstep := step_of_alive ha hpc
  rw [hi] at hstep
  refine ⟨fun u hu => ?next, fun f hf => ?fault, fun r hr => ?refused⟩
  case next => exact (hstep.trans (congrArg completeCycle hu)).trans (congrArg _ u.finishCycle_eq)
  case fault => exact hstep.trans (congrArg completeCycle hf)
  case refused => exact hstep.trans (congrArg completeCycle hr)

/-- Settles O10: in mode Faulted the step answers the state it was given, which still records the error. -/
theorem faultedCycleChangesNothing : Obligations.FaultedCycleChangesNothing := by
  unfold Obligations.FaultedCycleChangesNothing
  intro s e h
  have hstep := step_of_faulted h
  exact ⟨hstep, by rw [cycle_of_step hstep, State.cycleResult_of_faulted h]⟩

/-! ## How a cycle of a block that executes ends -/

/-- A cycle of a block that executes ends Running, or with its instruction's error raised on the state after the fetch. -/
theorem step_ends_running_or_raised {s t : State} (ha : s.alive = true) (h : step s = .next t) :
    t.mode = .running ∨
      ∃ e, RaisesOn (decode s.wordAtPc) (s.setPc (advancePc s.pc)) e ∧ t = (s.setPc (advancePc s.pc)).raise e := by
  obtain ⟨hd, -⟩ | ⟨-, -, u, hu, rfl⟩ := step_next_cases h
  · exact absurd (ha.symm.trans hd) (by decide)
  · obtain ⟨e, hcause, rfl⟩ | hkeep := exec_raises_or_keeps_mode hu
    · exact .inr ⟨e, hcause, rfl⟩
    · have hu_alive : u.alive = true := by
        rw [State.alive_iff, hkeep]
        exact s.alive_iff.mp ha
      exact .inl (by rw [State.finishCycle_of_alive hu_alive, State.setMode_mode])

/-- Settles O11: the answer is read from the mode the cycle ends in, and a raised error is an execution-time one. -/
theorem cycleEndsRunningOrFaulted : Obligations.CycleEndsRunningOrFaulted := by
  unfold Obligations.CycleEndsRunningOrFaulted
  intro s t r ha h
  obtain ⟨hstep, rfl⟩ := cycle_eq_next h
  obtain hrun | ⟨e, hcause, rfl⟩ := step_ends_running_or_raised ha hstep
  · exact .inl ⟨State.cycleResult_of_running hrun, hrun⟩
  · exact .inr ⟨e, isExecutionTime_of_raisesOn hcause, rfl, rfl⟩

/-- Settles O12: a cycle that ends with a fault record does not end Running, so it raised on the state after the fetch. -/
theorem faultIsPrecise : Obligations.FaultIsPrecise := by
  unfold Obligations.FaultIsPrecise
  intro s t e ha h hm
  obtain hrun | ⟨e', -, rfl⟩ := step_ends_running_or_raised ha h
  · exact absurd (hrun.symm.trans hm) (by simp)
  · have he : e' = e := Mode.faulted.inj hm
    rw [he]
    rfl

/-- A cycle of a block that executes raises the error its fetched instruction has a cause for. -/
theorem step_of_raisesOn {s : State} {e : Error} (ha : s.alive = true) (hpc : s.pc.toNat < memSize)
    (h : RaisesOn (decode s.wordAtPc) (s.setPc (advancePc s.pc)) e) : step s = .next ((s.setPc (advancePc s.pc)).raise e) := by
  rw [step_of_alive ha hpc, exec_of_raisesOn h, completeCycle, State.finishCycle_raise]

/-- A cycle on a fetched word of the unknown space raises UnsupportedOpcode with that word. -/
theorem step_of_unknown_word {s : State} {w : Word} (ha : s.alive = true) (hpc : s.pc.toNat < memSize) (hw : s.wordAtPc = w)
    (hu : inUnknownSpace w = true) : step s = .next ((s.setPc (advancePc s.pc)).raise (.unsupportedOpcode w)) := by
  refine step_of_raisesOn ha hpc ?_
  rw [hw, decode_unknownInstruction hu]
  exact .inr (.inr (.inr ⟨w, rfl, rfl⟩))

/-- Settles O42: the two bytes at pc make up the word, and its cycle raises on the state after the fetch. -/
theorem cycleOnAnUnknownWordFaults : Obligations.CycleOnAnUnknownWordFaults := by
  unfold Obligations.CycleOnAnUnknownWordFaults
  exact fun s w ha hpc hu hi lo => cycle_of_step (step_of_unknown_word ha hpc (State.wordAtPc_of_bytes hi lo) hu)

/-! ## Ready and Running -/

/-- What an instruction does, once its cycle has ended, is the same in mode Ready and in mode Running: no arm reads the mode. -/
theorem completeCycle_exec_ready_eq_running (i : Instr) (s : State) :
    completeCycle (exec i (s.setMode .ready)) = completeCycle (exec i (s.setMode .running)) := by
  cases i with
  | clearScreen | jump | setRegister | addToRegister | setIndex | unknownInstruction => rfl
  | stopSubroutine =>
    cases hs : s.stack with
    | nil =>
      rw [exec_stopSubroutine_empty (s := s.setMode .ready) hs, exec_stopSubroutine_empty (s := s.setMode .running) hs]
      rfl
    | cons ret rest =>
      rw [exec_stopSubroutine_pop (s := s.setMode .ready) hs, exec_stopSubroutine_pop (s := s.setMode .running) hs]
      rfl
  | callSubroutine nnn =>
    by_cases hd : s.depth = 256
    · rw [exec_callSubroutine_full (s := s.setMode .ready) hd, exec_callSubroutine_full (s := s.setMode .running) hd]
      rfl
    · rw [exec_callSubroutine_push (s := s.setMode .ready) hd, exec_callSubroutine_push (s := s.setMode .running) hd]
      rfl
  | display x y n =>
    by_cases hb : s.index.toNat + n.val ≤ memSize
    · rw [exec_display_inBounds (s := s.setMode .ready) hb, exec_display_inBounds (s := s.setMode .running) hb]
      rfl
    · have ho := Nat.lt_of_not_le hb
      rw [exec_display_outOfBounds (s := s.setMode .ready) ho, exec_display_outOfBounds (s := s.setMode .running) ho]
      rfl

/-- Settles O14: the fetch does not read whether the mode is Ready or Running, no instruction does, and both end Running. -/
theorem readyAndRunningCyclesAgree : Obligations.ReadyAndRunningCyclesAgree := by
  unfold Obligations.ReadyAndRunningCyclesAgree
  intro s
  by_cases hpc : s.pc.toNat < memSize
  · calc step (s.setMode .ready)
        = completeCycle (exec (decode s.wordAtPc) ((s.setPc (advancePc s.pc)).setMode .ready)) := step_of_alive rfl hpc
      _ = completeCycle (exec (decode s.wordAtPc) ((s.setPc (advancePc s.pc)).setMode .running)) :=
        completeCycle_exec_ready_eq_running _ _
      _ = step (s.setMode .running) := (step_of_alive (s := s.setMode .running) rfl hpc).symm
  · calc step (s.setMode .ready)
        = .fault (.noSuchAddress s.pc.toNat) := step_of_no_address rfl hpc
      _ = step (s.setMode .running) := (step_of_no_address (s := s.setMode .running) rfl hpc).symm

/-! ## Two programs -/

/-- A cycle of a block that executes, whose instruction raises nothing, ends in its instruction's next state, Running. -/
theorem step_running {s u : State} {i : Instr} (ha : s.alive = true) (hpc : s.pc.toNat < memSize) (hi : decode s.wordAtPc = i)
    (hu : exec i (s.setPc (advancePc s.pc)) = .next u) (hua : u.alive = true) : step s = .next (u.setMode .running) := by
  rw [step_of_alive ha hpc, hi, hu, completeCycle, State.finishCycle_of_alive hua]

/-- A Jump to its own address answers the state itself, Running. -/
theorem step_selfJump {s : State} (ha : s.alive = true) (hpc : s.pc.toNat < memSize) (hw : s.wordAtPc.toNat = 0x1000 + s.pc.toNat) :
    step s = .next (s.setMode .running) := by
  have hpc' : s.pc.toNat < 4096 := hpc
  have hfield : zextAddr (fieldNnn s.wordAtPc) = s.pc := BitVec.eq_of_toNat_eq (by rw [toNat_zextAddr, toNat_fieldNnn]; omega)
  have hexec := exec_jump (fieldNnn s.wordAtPc) (s.setPc (advancePc s.pc))
  rw [hfield] at hexec
  exact step_running ha hpc (decode_jump (by omega)) hexec ha

/-- Settles O15: one cycle answers the state itself, Running, and the word at pc is there again. -/
theorem selfJumpIsAFixedPoint : Obligations.SelfJumpIsAFixedPoint := by
  unfold Obligations.SelfJumpIsAFixedPoint
  intro s k ha hpc hbytes
  rw [← State.toNat_wordAtPc] at hbytes
  induction k generalizing s with
  | zero => exact run_succ_of_step (step_selfJump ha hpc hbytes) 0
  | succ k ih => exact (run_succ_of_step (step_selfJump ha hpc hbytes) (k + 1)).trans (ih (s.setMode .running) rfl hpc hbytes)

/-- Settles O28: the call's cycle pushes the address after it and goes to the target, and the cycle there pops it. -/
theorem callToAReturnComesBack : Obligations.CallToAReturnComesBack := by
  unfold Obligations.CallToAReturnComesBack
  intro s nnn ha hpc hd hcall hhi hlo
  rw [← State.toNat_wordAtPc] at hcall
  rw [← toNat_zextAddr nnn] at hhi hlo
  have hnnn := nnn.isLt
  have hfield : fieldNnn s.wordAtPc = nnn := BitVec.eq_of_toNat_eq (by rw [toNat_fieldNnn]; omega)
  have hdec : decode s.wordAtPc = .callSubroutine nnn := by rw [decode_callSubroutine (by omega), hfield]
  have hstep1 := step_running ha hpc hdec
    (exec_callSubroutine_push (s := s.setPc (advancePc s.pc)) (Nat.ne_of_lt hd) nnn) ha
  have hret : State.wordAtPc ((((s.setPc (advancePc s.pc)).push (advancePc s.pc)).setPc (zextAddr nnn)).setMode .running) = 0x00EE :=
    State.wordAtPc_of_bytes hhi hlo
  have hstep2 := step_running (i := .stopSubroutine) rfl (zextAddr_lt nnn) (by rw [hret]; decide) (exec_stopSubroutine_pop rfl) rfl
  exact (run_succ_of_step hstep1 1).trans (run_succ_of_step hstep2 0)

end Sys2Proof.Machine
end

section
/-! Display beyond its pixels (43_display.md R121 to R128): the flag as the collision of the whole sprite, the frame, the bound, a sprite of
height 0, and two draws of one sprite. -/

namespace Sys2Proof.Machine

/-! ## The flag -/

/-- The placed bits of a sprite collide where the sprite is ON on a pixel that is ON (R123). -/
theorem State.collides_placeSprite_iff (s : State) (x y : RegNum) (n : RowCount) :
    s.fb.collides (placeSprite (originX (s.readV x)) (originY (s.readV y)) (s.spriteRows n)) = true ↔
      ∃ X Y, s.spriteOn x y n X Y = true ∧ s.pixel X Y = true := by
  simp only [FrameBuffer.collides_iff, State.litAt_placeSprite_spriteRows, State.pixel]

/-- After a drawn sprite VF holds the collision of its placed bits. -/
theorem State.readV_flag_drawn (s : State) (x y : RegNum) (n : RowCount) :
    (s.drawn x y n).readV 0xF =
      flagByte (s.fb.collides (placeSprite (originX (s.readV x)) (originY (s.readV y)) (s.spriteRows n))) := by
  rw [State.readV_setCollision]
  rfl

/-- A sprite that is ON on a pixel that was ON writes VF with 1. -/
theorem State.flag_drawn_of_hit {s : State} {x y : RegNum} {n : RowCount}
    (h : ∃ X Y, s.spriteOn x y n X Y = true ∧ s.pixel X Y = true) : (s.drawn x y n).readV 0xF = 1 := by
  rw [State.readV_flag_drawn, (s.collides_placeSprite_iff x y n).mpr h]
  rfl

/-- A sprite that is ON only on pixels that were OFF writes VF with 0. -/
theorem State.flag_drawn_of_no_hit {s : State} {x y : RegNum} {n : RowCount}
    (h : ∀ X Y, s.spriteOn x y n X Y = true → s.pixel X Y = false) : (s.drawn x y n).readV 0xF = 0 := by
  have hmiss : ¬ ∃ X Y, s.spriteOn x y n X Y = true ∧ s.pixel X Y = true := by
    rintro ⟨X, Y, hon, hpix⟩
    exact Bool.false_ne_true ((h X Y hon).symm.trans hpix)
  rw [← s.collides_placeSprite_iff, Bool.not_eq_true] at hmiss
  rw [State.readV_flag_drawn, hmiss]
  rfl

/-- Settles O34: in bounds the next state is the drawn one, whose flag is the collision pixel by pixel. -/
theorem displayFlagIsTheWholeSpritesCollision : Obligations.DisplayFlagIsTheWholeSpritesCollision := by
  unfold Obligations.DisplayFlagIsTheWholeSpritesCollision
  exact fun x y n s h => ⟨_, exec_display_inBounds h x y, State.flag_drawn_of_hit, State.flag_drawn_of_no_hit⟩

/-! ## The frame and the bound -/

/-- A drawn sprite leaves every register but VF, and everything but the registers and the pixels. -/
theorem State.drawn_frame (s : State) (x y : RegNum) (n : RowCount) :
    (∀ r, r ≠ 0xF → (s.drawn x y n).readV r = s.readV r) ∧ (s.drawn x y n).index = s.index ∧ (s.drawn x y n).pc = s.pc ∧
    (s.drawn x y n).stack = s.stack ∧ sameTimers s (s.drawn x y n) ∧ (s.drawn x y n).mode = s.mode ∧
    sameMemory s (s.drawn x y n) :=
  ⟨fun _ h => State.readV_writeV_other _ h.symm _, rfl, rfl, rfl, ⟨rfl, rfl⟩, rfl, fun _ _ => rfl⟩

/-- Settles O35: a drawn sprite writes pixels and VF. -/
theorem displayWritesPixelsAndFlagOnly : Obligations.DisplayWritesPixelsAndFlagOnly := by
  unfold Obligations.DisplayWritesPixelsAndFlagOnly
  exact fun x y n s h => ⟨_, exec_display_inBounds h x y, s.drawn_frame x y n⟩

/-- Settles O37: in bounds a Display keeps the mode, so it faults out of bounds alone, and there at most 15 rows reach past the top. -/
theorem displayFaultsOnlyNearTheTopOfMemory : Obligations.DisplayFaultsOnlyNearTheTopOfMemory := by
  unfold Obligations.DisplayFaultsOnlyNearTheTopOfMemory
  intro x y n s t ha hI h hdead
  have hout : ¬ s.index.toNat + n.val ≤ 4096 := by
    intro hb
    have ht : s.drawn x y n = t := Host.Outcome.next.inj ((exec_display_inBounds hb x y).symm.trans h)
    rw [← ht] at hdead
    exact Bool.false_ne_true (hdead.symm.trans ha)
  have hn := n.isLt
  refine ⟨by omega, ?_⟩
  rintro rfl
  exact hout (Nat.le_of_lt hI)

/-! ## Height zero -/

/-- A sprite of no rows is ON nowhere. -/
theorem State.spriteOn_zero (s : State) (x y : RegNum) (X : Fin 64) (Y : Fin 32) : s.spriteOn x y 0 X Y = false := by
  have hempty : ¬ ((s.readV y).toNat % 32 ≤ Y.val ∧ Y.val < (s.readV y).toNat % 32 + (0 : RowCount).val ∧
      (s.readV x).toNat % 64 ≤ X.val ∧ X.val < (s.readV x).toNat % 64 + 8) := by
    rintro ⟨hle, hlt, -⟩
    exact Nat.not_lt.mpr hle hlt
  rw [State.spriteOn, decide_eq_false hempty, Bool.false_and]

/-- Settles O38: no rows are always in bounds; they are ON nowhere, so no pixel changes and nothing collides. -/
theorem displayOfHeightZeroClearsTheFlagOnly : Obligations.DisplayOfHeightZeroClearsTheFlagOnly := by
  unfold Obligations.DisplayOfHeightZeroClearsTheFlagOnly
  intro x y s hI
  have hflag : (s.drawn x y 0).readV 0xF = 0 :=
    State.flag_drawn_of_no_hit fun X Y hon => absurd ((s.spriteOn_zero x y X Y).symm.trans hon) Bool.false_ne_true
  have hpixels : samePixels s (s.drawn x y 0) := fun X Y => by rw [State.pixel_drawn, State.spriteOn_zero, Bool.xor_false]
  obtain ⟨hregs, hframe⟩ := s.drawn_frame x y 0
  have hbound : s.index.toNat + (0 : RowCount).val ≤ memSize := Nat.le_of_lt hI
  exact ⟨_, exec_display_inBounds hbound x y, hflag, hregs, hpixels, hframe⟩

/-! ## Two draws of one sprite -/

/-- Where a sprite is ON depends on its reduced origin, I and Memory alone. -/
theorem State.spriteOn_congr {s t : State} {x y : RegNum} (hx : (t.readV x).toNat % 64 = (s.readV x).toNat % 64)
    (hy : (t.readV y).toNat % 32 = (s.readV y).toNat % 32) (hindex : t.index = s.index) (hmem : t.mem = s.mem) (n : RowCount)
    (X : Fin 64) (Y : Fin 32) : t.spriteOn x y n X Y = s.spriteOn x y n X Y := by
  simp only [State.spriteOn, hx, hy, hindex, hmem]

section
variable {s : State} {x y : RegNum} {n : RowCount} (hx : ((s.drawn x y n).readV x).toNat % 64 = (s.readV x).toNat % 64)
  (hy : ((s.drawn x y n).readV y).toNat % 32 = (s.readV y).toNat % 32)
include hx hy

/-- With its origin kept, the second draw places the sprite where the first did. -/
theorem State.spriteOn_drawn (X : Fin 64) (Y : Fin 32) : (s.drawn x y n).spriteOn x y n X Y = s.spriteOn x y n X Y :=
  State.spriteOn_congr hx hy rfl rfl n X Y

/-- With its origin kept, a sprite drawn twice restores every pixel: each is XORed twice with the same bit (R128). -/
theorem State.pixel_drawn_twice : samePixels s ((s.drawn x y n).drawn x y n) := fun X Y => by
  rw [State.pixel_drawn, State.pixel_drawn, State.spriteOn_drawn hx hy, Bool.xor_assoc, Bool.xor_self, Bool.xor_false]

/-- The second draw hits where the sprite is ON on a pixel that was OFF before the first. -/
theorem State.flag_second_draw_of_off (h : ∃ X Y, s.spriteOn x y n X Y = true ∧ s.pixel X Y = false) :
    ((s.drawn x y n).drawn x y n).readV 0xF = 1 := by
  obtain ⟨X, Y, hon, hoff⟩ := h
  refine State.flag_drawn_of_hit ⟨X, Y, ?_, ?_⟩
  · rw [State.spriteOn_drawn hx hy, hon]
  · rw [State.pixel_drawn, hon, hoff, Bool.false_xor]

/-- The second draw hits nothing where the sprite was ON on pixels that were ON alone: the first draw turned them OFF. -/
theorem State.flag_second_draw_of_on (h : ∀ X Y, s.spriteOn x y n X Y = true → s.pixel X Y = true) :
    ((s.drawn x y n).drawn x y n).readV 0xF = 0 := by
  refine State.flag_drawn_of_no_hit fun X Y hon => ?_
  rw [State.spriteOn_drawn hx hy] at hon
  rw [State.pixel_drawn, hon, h X Y hon, Bool.xor_self]

end

/-- Settles O39: both draws are in bounds, since the first leaves I, and the second meets each pixel XORed once. -/
theorem drawingTwiceRestoresTheScreen : Obligations.DrawingTwiceRestoresTheScreen := by
  unfold Obligations.DrawingTwiceRestoresTheScreen
  intro x y n s h
  refine ⟨_, _, exec_display_inBounds h x y, exec_display_inBounds (s := s.drawn x y n) h x y, fun hx hy => ?_⟩
  exact ⟨State.pixel_drawn_twice hx hy, State.flag_second_draw_of_off hx hy, State.flag_second_draw_of_on hx hy⟩

/-- The state after construction with I at glyph 0, whose top row is 0xF0, and the pixels (0, 0) to (3, 0) ON: the four pixels on which
that row, drawn at (0, 0), is ON. -/
def glyphRowShown : State := { State.reset with index := 0x050, fb := FrameBuffer.clear.set 0 0xF }

/-- Refutes O40: the row 0xF0 drawn at (0, 0) where its four pixels are ON turns them OFF, so the second draw hits none and VF is 0. -/
theorem not_secondOfTwoDrawsAlwaysCollides : ¬ Obligations.SecondOfTwoDrawsAlwaysCollides := by
  unfold Obligations.SecondOfTwoDrawsAlwaysCollides
  intro h
  have hflag : ((glyphRowShown.drawn 0 0 1).drawn 0 0 1).readV 0xF = 1 :=
    h 0 0 1 glyphRowShown _ _ (exec_display_inBounds (by decide) 0 0) (exec_display_inBounds (by decide) 0 0) rfl rfl rfl
      ⟨0, 0, by decide⟩
  exact absurd hflag (by decide)

end Sys2Proof.Machine
end

section
/-! Rules over all instructions: what no instruction writes, and which instructions alone write a register, pc, the stack, I or the frame
buffer (10_state.md R21, R25, R28, R31, R35; 20_memory.md R54). -/

namespace Sys2Proof.Machine

/-! ## The two next states of an instruction that branches -/

theorem exec_stopSubroutine_next {s t : State} (h : exec .stopSubroutine s = .next t) :
    t = s.raise .stackUnderflow ∨ ∃ ret rest, s.stack = ret :: rest ∧ t = { s with stack := rest, pc := ret } := by
  cases hs : s.stack with
  | nil => exact .inl (Host.Outcome.next.inj (h.symm.trans (exec_stopSubroutine_empty hs)))
  | cons ret rest => exact .inr ⟨ret, rest, rfl, Host.Outcome.next.inj (h.symm.trans (exec_stopSubroutine_pop hs))⟩

theorem exec_callSubroutine_next {nnn : Addr} {s t : State} (h : exec (.callSubroutine nnn) s = .next t) :
    t = s.raise (.stackOverflow s.pc) ∨ (s.depth ≠ 256 ∧ t = (s.push s.pc).setPc (zextAddr nnn)) := by
  by_cases hd : s.depth = 256
  · exact .inl (Host.Outcome.next.inj (h.symm.trans (exec_callSubroutine_full hd nnn)))
  · exact .inr ⟨hd, Host.Outcome.next.inj (h.symm.trans (exec_callSubroutine_push hd nnn))⟩

theorem exec_display_next {x y : RegNum} {n : RowCount} {s t : State} (h : exec (.display x y n) s = .next t) :
    t = s.raise (.memoryOutOfBounds s.index n) ∨ t = s.drawn x y n := by
  by_cases hb : s.index.toNat + n.val ≤ memSize
  · exact .inr (Host.Outcome.next.inj (h.symm.trans (exec_display_inBounds hb x y)))
  · exact .inl (Host.Outcome.next.inj (h.symm.trans (exec_display_outOfBounds (Nat.lt_of_not_le hb) x y)))

/-! ## Memory -/

/-- No instruction writes Memory (R54). -/
theorem exec_mem {i : Instr} {s t : State} (h : exec i s = .next t) : t.mem = s.mem := by
  cases i with
  | clearScreen | jump | setRegister | addToRegister | setIndex | unknownInstruction => cases h; rfl
  | stopSubroutine => obtain rfl | ⟨_, _, -, rfl⟩ := exec_stopSubroutine_next h <;> rfl
  | callSubroutine => obtain rfl | ⟨-, rfl⟩ := exec_callSubroutine_next h <;> rfl
  | display => obtain rfl | rfl := exec_display_next h <;> rfl

/-- No cycle writes Memory: the fetch and the end of a cycle leave it too. -/
theorem step_mem {s t : State} (h : step s = .next t) : t.mem = s.mem := by
  obtain ⟨-, rfl⟩ | ⟨-, -, u, hu, rfl⟩ := step_next_cases h
  · rfl
  · rw [State.finishCycle_mem, exec_mem hu, State.setPc_mem]

/-- Settles O43: the list of bytes itself is kept, by every instruction and by every cycle. -/
theorem noInstructionWritesMemory : Obligations.NoInstructionWritesMemory := by
  unfold Obligations.NoInstructionWritesMemory
  exact ⟨fun _ _ _ h _ _ => by rw [exec_mem h], fun _ _ h _ _ => by rw [step_mem h]⟩

/-! ## The general registers -/

/-- A register write changes its destination alone. -/
theorem State.eq_of_readV_writeV_ne {s : State} {x r : RegNum} {b : Byte} (h : (s.writeV x b).readV r ≠ s.readV r) : x = r := by
  by_contra hne
  exact h (s.readV_writeV_other hne b)

/-- Settles O46: three instructions write a register, each a single one; the others leave them all. -/
theorem registersChangeOnlyAsDestinations : Obligations.RegistersChangeOnlyAsDestinations := by
  unfold Obligations.RegistersChangeOnlyAsDestinations
  intro i s t r h hne
  cases i with
  | clearScreen | jump | setIndex | unknownInstruction => cases h; exact absurd rfl hne
  | stopSubroutine => obtain rfl | ⟨_, _, -, rfl⟩ := exec_stopSubroutine_next h <;> exact absurd rfl hne
  | callSubroutine => obtain rfl | ⟨-, rfl⟩ := exec_callSubroutine_next h <;> exact absurd rfl hne
  | setRegister x kk =>
    cases h
    exact .inl ⟨kk, by rw [State.eq_of_readV_writeV_ne hne]⟩
  | addToRegister x kk =>
    cases h
    exact .inr (.inl ⟨kk, by rw [State.eq_of_readV_writeV_ne hne]⟩)
  | display x y n =>
    obtain rfl | rfl := exec_display_next h
    · exact absurd rfl hne
    · have hr : flagReg = r := State.eq_of_readV_writeV_ne (s := s.setFb _) hne
      exact .inr (.inr ⟨hr.symm, x, y, n, rfl⟩)

/-! ## pc, the stack and I -/

/-- Only Jump, CallSubroutine and StopSubroutine write pc (R25). -/
theorem exec_pc {i : Instr} {s t : State} (h : exec i s = .next t) :
    t.pc = s.pc ∨ (∃ a, i = .jump a) ∨ (∃ a, i = .callSubroutine a) ∨ i = .stopSubroutine := by
  cases i with
  | jump a => exact .inr (.inl ⟨a, rfl⟩)
  | callSubroutine a => exact .inr (.inr (.inl ⟨a, rfl⟩))
  | stopSubroutine => exact .inr (.inr (.inr rfl))
  | clearScreen | setRegister | addToRegister | setIndex | unknownInstruction => cases h; exact .inl rfl
  | display => obtain rfl | rfl := exec_display_next h <;> exact .inl rfl

/-- Only CallSubroutine and StopSubroutine write the stack (R31). -/
theorem exec_stack {i : Instr} {s t : State} (h : exec i s = .next t) :
    t.stack = s.stack ∨ (∃ a, i = .callSubroutine a) ∨ i = .stopSubroutine := by
  cases i with
  | callSubroutine a => exact .inr (.inl ⟨a, rfl⟩)
  | stopSubroutine => exact .inr (.inr rfl)
  | clearScreen | jump | setRegister | addToRegister | setIndex | unknownInstruction => cases h; exact .inl rfl
  | display => obtain rfl | rfl := exec_display_next h <;> exact .inl rfl

/-- Only SetIndex writes I (R28). -/
theorem exec_index {i : Instr} {s t : State} (h : exec i s = .next t) : t.index = s.index ∨ ∃ a, i = .setIndex a := by
  cases i with
  | setIndex a => exact .inr ⟨a, rfl⟩
  | clearScreen | jump | setRegister | addToRegister | unknownInstruction => cases h; exact .inl rfl
  | stopSubroutine => obtain rfl | ⟨_, _, -, rfl⟩ := exec_stopSubroutine_next h <;> exact .inl rfl
  | callSubroutine => obtain rfl | ⟨-, rfl⟩ := exec_callSubroutine_next h <;> exact .inl rfl
  | display => obtain rfl | rfl := exec_display_next h <;> exact .inl rfl

/-- Settles O47: each of the three is kept, or the instruction is one that writes it. -/
theorem pcStackAndIndexChangeOnlyByTheirInstructions : Obligations.PcStackAndIndexChangeOnlyByTheirInstructions := by
  unfold Obligations.PcStackAndIndexChangeOnlyByTheirInstructions
  exact fun i s t h => ⟨(exec_pc h).resolve_left, (exec_stack h).resolve_left, (exec_index h).resolve_left⟩

/-! ## The frame buffer -/

/-- An instruction that is neither ClearScreen nor Display does the same with other pixels, and leaves them. -/
theorem exec_setFb {i : Instr} {s t : State} (hdisplay : ∀ x y n, i ≠ .display x y n) (hclear : i ≠ .clearScreen)
    (h : exec i s = .next t) (f : FrameBuffer) : exec i (s.setFb f) = .next (t.setFb f) := by
  cases i with
  | clearScreen => exact absurd rfl hclear
  | display x y n => exact absurd rfl (hdisplay x y n)
  | jump | setRegister | addToRegister | setIndex | unknownInstruction => cases h; rfl
  | stopSubroutine =>
    cases hs : s.stack with
    | nil => rw [exec_stopSubroutine_empty hs] at h; cases h; exact exec_stopSubroutine_empty (s := s.setFb f) hs
    | cons ret rest => rw [exec_stopSubroutine_pop hs] at h; cases h; exact exec_stopSubroutine_pop (s := s.setFb f) hs
  | callSubroutine nnn =>
    by_cases hd : s.depth = 256
    · rw [exec_callSubroutine_full hd] at h; cases h; exact exec_callSubroutine_full (s := s.setFb f) hd nnn
    · rw [exec_callSubroutine_push hd] at h; cases h; exact exec_callSubroutine_push (s := s.setFb f) hd nnn

/-- Such an instruction leaves the frame buffer: with the frame buffer it is given put in, its next state is the same. -/
theorem exec_fb {i : Instr} {s t : State} (hdisplay : ∀ x y n, i ≠ .display x y n) (hclear : i ≠ .clearScreen)
    (h : exec i s = .next t) : t.fb = s.fb := by
  have ht : t = t.setFb s.fb := Host.Outcome.next.inj (h.symm.trans (exec_setFb hdisplay hclear h s.fb))
  rw [ht, State.setFb_fb]

/-- Settles O45: ClearScreen writes the same frame buffer over any, and an instruction that is neither commutes with other pixels. -/
theorem frameBufferIsTouchedByDisplayInstructionsOnly : Obligations.FrameBufferIsTouchedByDisplayInstructionsOnly := by
  unfold Obligations.FrameBufferIsTouchedByDisplayInstructionsOnly
  intro i s t f hdisplay h
  refine ⟨?_, fun hclear => ⟨fun X Y => ?_, exec_setFb hdisplay hclear h f⟩⟩
  · rintro rfl
    exact h
  · rw [State.pixel, State.pixel, exec_fb hdisplay hclear h]

end Sys2Proof.Machine
end

section
/-! The invariant (10_state.md R26, R28, R30, R31, R33, R41; 20_memory.md section 1): construction meets it, and every cycle and every
host operation keeps it. -/

namespace Sys2Proof.Machine

/-! ## The parts that one operation writes -/

theorem State.Inv.setPc {s : State} (h : s.Inv) {w : Word} (hw : w.toNat < memSize) : (s.setPc w).Inv :=
  ⟨hw, h.2⟩

theorem State.Inv.setIndex {s : State} (h : s.Inv) {w : Word} (hw : w.toNat < memSize) : (s.setIndex w).Inv :=
  ⟨h.1, hw, h.2.2⟩

theorem State.Inv.setMode {s : State} (h : s.Inv) {m : Mode} (hm : m.recordsExecutionError = true) : (s.setMode m).Inv := by
  obtain ⟨hpc, hindex, hdepth, hstack, -, hmem⟩ := h
  exact ⟨hpc, hindex, hdepth, hstack, hm, hmem⟩

theorem State.Inv.raise {s : State} (h : s.Inv) {e : Error} (he : e.isExecutionTime = true) : (s.raise e).Inv :=
  h.setMode he

theorem State.Inv.finishCycle {s : State} (h : s.Inv) : s.finishCycle.Inv := by
  have hm := h.2.2.2.2.1
  exact h.setMode (by rw [Mode.recordsExecutionError_afterCycle, hm])

/-- A push below the capacity of an address inside Memory. -/
theorem State.Inv.push {s : State} (h : s.Inv) (hd : s.depth ≠ 256) {w : Word} (hw : w.toNat < memSize) : (s.push w).Inv := by
  obtain ⟨hpc, hindex, hdepth, hstack, hmode, hmem⟩ := h
  have hroom : s.depth + 1 ≤ 256 := Nat.lt_of_le_of_ne hdepth hd
  exact ⟨hpc, hindex, hroom, by rw [State.push_stack, List.all_cons, hstack, decide_eq_true hw, Bool.and_true], hmode, hmem⟩

/-- The popped entry is an address inside Memory, and the stack that is left is shorter. -/
theorem State.Inv.pop {s : State} (h : s.Inv) {ret : Word} {rest : List Word} (hs : s.stack = ret :: rest) :
    State.Inv { s with stack := rest, pc := ret } := by
  obtain ⟨-, hindex, hdepth, hstack, hmode, hmem⟩ := h
  rw [State.depth, hs, List.length_cons] at hdepth
  rw [hs, List.all_cons, Bool.and_eq_true, decide_eq_true_eq] at hstack
  exact ⟨hstack.1, hindex, Nat.le_of_succ_le hdepth, hstack.2, hmode, hmem⟩

/-! ## Instructions and cycles -/

/-- Every instruction keeps the invariant: registers and pixels take no part in it, and 12-bit addresses lie inside Memory. -/
theorem exec_keeps_inv {i : Instr} {s t : State} (hs : s.Inv) (h : exec i s = .next t) : t.Inv := by
  cases i with
  | clearScreen | setRegister | addToRegister => cases h; exact hs
  | jump nnn => cases h; exact hs.setPc (zextAddr_lt nnn)
  | setIndex nnn => cases h; exact hs.setIndex (zextAddr_lt nnn)
  | unknownInstruction => cases h; exact hs.raise rfl
  | stopSubroutine =>
    obtain rfl | ⟨ret, rest, hstack, rfl⟩ := exec_stopSubroutine_next h
    · exact hs.raise rfl
    · exact hs.pop hstack
  | callSubroutine nnn =>
    obtain rfl | ⟨hd, rfl⟩ := exec_callSubroutine_next h
    · exact hs.raise rfl
    · exact (hs.push hd hs.1).setPc (zextAddr_lt nnn)
  | display =>
    obtain rfl | rfl := exec_display_next h
    · exact hs.raise rfl
    · exact hs

/-- Settles O17: the fetch, the instruction and the end of the cycle each keep the invariant. -/
theorem stepKeepsTheInvariant : Obligations.StepKeepsTheInvariant := by
  unfold Obligations.StepKeepsTheInvariant
  intro s t hs h
  obtain ⟨-, rfl⟩ | ⟨-, -, u, hu, rfl⟩ := step_next_cases h
  · exact hs
  · exact (exec_keeps_inv (hs.setPc (advancePc_lt s.pc)) hu).finishCycle

/-- Every instruction answers a next state: no arm of `exec` stops or is refused. -/
theorem exec_answers (i : Instr) (s : State) : ∃ t, exec i s = .next t := by
  cases i with
  | clearScreen | jump | setRegister | addToRegister | setIndex | unknownInstruction => exact ⟨_, rfl⟩
  | stopSubroutine =>
    cases hs : s.stack with
    | nil => exact ⟨_, exec_stopSubroutine_empty hs⟩
    | cons => exact ⟨_, exec_stopSubroutine_pop hs⟩
  | callSubroutine nnn =>
    by_cases hd : s.depth = 256
    · exact ⟨_, exec_callSubroutine_full hd nnn⟩
    · exact ⟨_, exec_callSubroutine_push hd nnn⟩
  | display x y n =>
    by_cases hb : s.index.toNat + n.val ≤ memSize
    · exact ⟨_, exec_display_inBounds hb x y⟩
    · exact ⟨_, exec_display_outOfBounds (Nat.lt_of_not_le hb) x y⟩

/-- With pc inside Memory the step answers a next state. -/
theorem step_answers {s : State} (hpc : s.pc.toNat < memSize) : ∃ t, step s = .next t := by
  cases ha : s.alive with
  | false =>
    obtain ⟨e, he⟩ := s.alive_eq_false_iff.mp ha
    exact ⟨s, step_of_faulted he⟩
  | true =>
    obtain ⟨u, hu⟩ := exec_answers (decode s.wordAtPc) (s.setPc (advancePc s.pc))
    exact ⟨u.finishCycle, by rw [step_of_alive ha hpc, hu, completeCycle]⟩

/-- Settles O18: the invariant keeps pc inside Memory, where the step answers, and the cycle answers with it. -/
theorem cycleAnswersFromEveryGoodState : Obligations.CycleAnswersFromEveryGoodState := by
  unfold Obligations.CycleAnswersFromEveryGoodState
  intro s hs
  obtain ⟨t, ht⟩ := step_answers hs.1
  exact ⟨t, ht, cycle_of_step ht⟩

/-! ## Host operations -/

/-- Settles O16: construction is one state, and the invariant is decided on it. -/
theorem invariantAtConstruction : Obligations.InvariantAtConstruction := by
  unfold Obligations.InvariantAtConstruction
  decide

/-- A load keeps the invariant: the program area ends where Memory does, and the mode after a load keeps what it records. -/
theorem load_keeps_inv (src : List Byte) {s : State} (h : s.Inv) : (load src s).2.Inv := by
  obtain hsame | ⟨hlen, hload⟩ := load_cases src s
  · rwa [hsame]
  · obtain ⟨hpc, hindex, hdepth, hstack, hmode, hmem⟩ := h
    rw [hload]
    exact ⟨hpc, hindex, hdepth, hstack, by rw [State.copyProgram_mode, Mode.recordsExecutionError_afterLoad, hmode],
      Memory.writeBytes_wf hmem (Nat.add_le_add_left hlen progBase)⟩

/-- Timers take no part in the invariant. -/
theorem State.Inv.decrementTimer {s : State} (h : s.Inv) (k : Timer) : (s.decrementTimer k).Inv := by
  cases k <;> exact h

/-- Settles O19: the reads change nothing, and each of the other operations answers and keeps the invariant. -/
theorem hostOperationsKeepTheInvariant : Obligations.HostOperationsKeepTheInvariant := by
  unfold Obligations.HostOperationsKeepTheInvariant
  intro op s hs
  cases op with
  | construct => exact ⟨_, _, rfl, invariantAtConstruction⟩
  | load src => exact ⟨_, _, rfl, load_keeps_inv src hs⟩
  | cycle =>
    obtain ⟨t, hstep, hcycle⟩ := cycleAnswersFromEveryGoodState s hs
    exact ⟨.result t.cycleResult, t, by rw [hostOp, hcycle], stepKeepsTheInvariant s t hs hstep⟩
  | readFrameBuffer | readTimer | readMode => exact ⟨_, _, rfl, hs⟩
  | decrementTimer k => exact ⟨_, _, rfl, hs.decrementTimer k⟩

/-! ## The canonical form of Memory -/

/-- The cells of a canonical memory are the addresses inside Memory that do not read as at reset, each with what it reads. -/
theorem Memory.mem_iff_of_wf {m : Memory} (hm : m.wf) (c : Host.Cell) :
    c ∈ m ↔ c.1 < memSize ∧ m.read c.1 = c.2 ∧ c.2 ≠ resetByte c.1 := by
  refine ⟨fun h => ⟨(hm.2 c h).1, Memory.read_of_mem hm.1 h, (hm.2 c h).2⟩, ?_⟩
  rintro ⟨-, hread, hne⟩
  by_contra hout
  have hlisted : ∃ d ∈ m, d.1 = c.1 := by
    by_contra hnone
    exact hne (hread.symm.trans (Memory.read_of_not_listed fun d hd he => hnone ⟨d, hd, he⟩))
  obtain ⟨d, hd, he⟩ := hlisted
  have hval : d.2 = c.2 := by rw [← Memory.read_of_mem hm.1 hd, he, hread]
  exact hout (Prod.ext he hval ▸ hd)

/-- A canonical memory that reads as another lists no other cells. -/
theorem Memory.subset_of_reads_eq {m m' : Memory} (hm : m.wf) (hm' : m'.wf) (h : ∀ a, a < memSize → m.read a = m'.read a) :
    m ⊆ m' := by
  intro c hc
  obtain ⟨hlt, hval, hne⟩ := (Memory.mem_iff_of_wf hm c).mp hc
  exact (Memory.mem_iff_of_wf hm' c).mpr ⟨hlt, by rw [← h _ hlt, hval], hne⟩

/-- A canonical memory lists no cell twice: its addresses rise. -/
theorem Memory.nodup_of_wf {m : Memory} (hm : m.wf) : m.Nodup := by
  refine List.Pairwise.imp ?_ hm.1
  rintro c _ hlt rfl
  exact Nat.lt_irrefl c.1 hlt

/-- Settles O20: equal reads list the same cells, and two lists of rising addresses with the same cells have them in the same order. -/
theorem canonicalMemoriesWithEqualBytesAreEqual : Obligations.CanonicalMemoriesWithEqualBytesAreEqual := by
  unfold Obligations.CanonicalMemoriesWithEqualBytesAreEqual
  intro m m' hm hm' hread
  have hsub : m ⊆ m' := Memory.subset_of_reads_eq hm hm' hread
  have hsup : m' ⊆ m := Memory.subset_of_reads_eq hm' hm fun a ha => (hread a ha).symm
  have hperm : m.Perm m' :=
    (List.perm_ext_iff_of_nodup (Memory.nodup_of_wf hm) (Memory.nodup_of_wf hm')).mpr fun _ => ⟨@hsub _, @hsup _⟩
  exact hperm.eq_of_pairwise (fun _ _ _ _ hlt hgt => absurd hgt (Nat.lt_asymm hlt)) hm.1 hm'.1

end Sys2Proof.Machine
end

section
/-! Construction and the host (70_reset_and_hazards.md R170 to R180; 60_exceptions.md R152 to R155): the state after construction, the first
cycle after a load, and what each host operation leaves. -/

namespace Sys2Proof.Machine

/-! ## Construction -/

/-- Inside the font area an unlisted address reads as its glyph's byte (20_memory.md R51). -/
theorem resetByte_font (g : Fin 16) (k : Fin 5) : resetByte (0x050 + 5 * g.val + k.val) = config.font[g.val][k.val] := by
  have hg := g.isLt
  have hk := k.isLt
  have hin : fontBase ≤ 0x050 + 5 * g.val + k.val ∧ 0x050 + 5 * g.val + k.val < fontBase + fontSize := by
    simp only [fontBase, fontSize]
    omega
  have hglyph : (0x050 + 5 * g.val + k.val - fontBase) / 5 = g.val := by simp only [fontBase]; omega
  have hrow : (0x050 + 5 * g.val + k.val - fontBase) % 5 = k.val := by simp only [fontBase]; omega
  rw [resetByte, dif_pos hin]
  simp only [hglyph, hrow]

/-- Outside the font area an unlisted address reads as 0. -/
theorem resetByte_of_not_font {a : Nat} (h : a < 0x050 ∨ 0x0A0 ≤ a) : resetByte a = 0 := by
  have hout : ¬ (fontBase ≤ a ∧ a < fontBase + fontSize) := by
    simp only [fontBase, fontSize]
    omega
  rw [resetByte, dif_neg hout]

/-- Settles O21: Memory lists nothing, so it reads as at reset; every other part of the state is its value in `State.reset`. -/
theorem constructionState : Obligations.ConstructionState := by
  unfold Obligations.ConstructionState
  have hregs (r : RegNum) : State.reset.readV r = 0 := by simp [State.reset, State.readV]
  exact ⟨resetByte_font, fun _ h => resetByte_of_not_font h, hregs, rfl, rfl, rfl, FrameBuffer.pixel_clear, rfl, rfl, rfl⟩

/-! ## The first cycle -/

/-- A block that executes at pc = 0 with 0 in the first two bytes of Memory faults in its first cycle on the word 0x0000. -/
theorem first_cycle_faults {s : State} (ha : s.alive = true) (hpc : s.pc = 0) (h0 : s.mem.read 0 = 0) (h1 : s.mem.read 1 = 0) :
    ∃ t, cycle s = .next (.err (.unsupportedOpcode 0), t) ∧ t.pc = 2 ∧ t.mode = .faulted (.unsupportedOpcode 0) := by
  have hw : s.wordAtPc = 0 := State.wordAtPc_of_bytes (by rw [hpc]; exact h0) (by rw [hpc]; exact h1)
  have hstep := step_of_unknown_word ha (by rw [hpc]; decide) hw (by decide)
  exact ⟨_, cycle_of_step hstep, by rw [hpc]; rfl, rfl⟩

/-- Settles O22: a load writes from 0x200 upward and leaves pc, so the first cycle fetches two bytes that are as construction left them. -/
theorem firstCycleAfterConstructionAndLoadFaults : Obligations.FirstCycleAfterConstructionAndLoadFaults := by
  unfold Obligations.FirstCycleAfterConstructionAndLoadFaults
  intro src
  have hlow (a : Nat) (ha : a < 2) : resetByte a = 0 := resetByte_of_not_font (by omega)
  obtain hsame | ⟨-, hload⟩ := load_cases src State.reset
  · rw [hsame]
    exact first_cycle_faults rfl rfl (hlow 0 (by decide)) (hlow 1 (by decide))
  · have hkept (a : Nat) (ha : a < 2) : (State.reset.copyProgram src).mem.read a = 0 :=
      (State.read_copyProgram_outside Memory.wf_nil src (.inl (Nat.lt_trans ha (by decide)))).trans (hlow a ha)
    rw [hload]
    exact first_cycle_faults rfl rfl (hkept 0 (by decide)) (hkept 1 (by decide))

/-! ## The load -/

theorem Mode.afterLoad_of_alive {s : State} (h : s.alive = true) : s.mode.afterLoad = .ready := by
  rw [State.alive_iff] at h
  cases hm : s.mode with
  | ready => rfl
  | running => rfl
  | faulted e => exact absurd hm (h e)

theorem Mode.afterLoad_of_not_alive {s : State} (h : s.alive = false) : s.mode.afterLoad = s.mode := by
  obtain ⟨e, he⟩ := s.alive_eq_false_iff.mp h
  rw [he]
  rfl

/-- Settles O49: an accepted load writes the mode with what the mode becomes after a load. -/
theorem loadMakesReadyUnlessFaulted : Obligations.LoadMakesReadyUnlessFaulted := by
  unfold Obligations.LoadMakesReadyUnlessFaulted
  intro src s hmin hmax
  have hload : load src s = (.ok, s.copyProgram src) := load_accepted (List.ne_nil_of_length_pos hmin) hmax s
  exact ⟨_, hload, Mode.afterLoad_of_alive, Mode.afterLoad_of_not_alive⟩

/-- Any load, accepted or not, leaves pc, I, the registers, the stack, the pixels and the timers. -/
theorem load_frame (src : List Byte) (s : State) :
    (load src s).2.pc = s.pc ∧ (load src s).2.index = s.index ∧ sameRegisters s (load src s).2 ∧
    (load src s).2.stack = s.stack ∧ samePixels s (load src s).2 ∧ sameTimers s (load src s).2 := by
  obtain hsame | ⟨-, hload⟩ := load_cases src s
  · rw [hsame]
    exact ⟨rfl, rfl, fun _ => rfl, rfl, fun _ _ => rfl, ⟨rfl, rfl⟩⟩
  · rw [hload]
    exact s.copyProgram_frame src

/-! ## The timers -/

theorem toNat_decrementByte (b : Byte) : (decrementByte b).toNat = b.toNat - 1 := by
  unfold decrementByte
  by_cases h : b = 0
  · rw [if_pos h, h]
    rfl
  · rw [if_neg h]
    bv_omega

/-- Settles O51: each timer operation reads or writes one field, by the saturating decrement. -/
theorem timerDecrementSaturates : Obligations.TimerDecrementSaturates := by
  unfold Obligations.TimerDecrementSaturates
  intro k s
  cases k with
  | delay =>
    refine ⟨toNat_decrementByte s.delay, fun j hj => ?_, rfl⟩
    cases j with
    | delay => exact absurd rfl hj
    | sound => rfl
  | sound =>
    refine ⟨toNat_decrementByte s.sound, fun j hj => ?_, rfl⟩
    cases j with
    | delay => rfl
    | sound => exact absurd rfl hj

/-- No cycle changes a timer: with the timer values it is given put in, its next state is the same. -/
theorem step_timers {s t : State} (h : step s = .next t) : sameTimers s t := by
  have ht : t = t.withTimers s.delay s.sound := Host.Outcome.next.inj (h.symm.trans (step_withTimers h s.delay s.sound))
  rw [ht]
  exact ⟨rfl, rfl⟩

/-- No host operation takes a timer away from 0: what it can do is construct, decrement, or leave the timers. -/
theorem hostOp_keeps_timers_zero {op : HostOp} {s t : State} {r : HostReply} (h : hostOp op s = .next (r, t))
    (hs : s.delay = 0 ∧ s.sound = 0) : t.delay = 0 ∧ t.sound = 0 := by
  have of_same {u : State} (hu : sameTimers s u) : u.delay = 0 ∧ u.sound = 0 := ⟨hu.1.trans hs.1, hu.2.trans hs.2⟩
  obtain rfl | rfl | ⟨src, rfl⟩ | hstep | ⟨k, rfl⟩ := hostOp_next_cases h
  · exact hs
  · exact ⟨rfl, rfl⟩
  · obtain ⟨-, -, -, -, -, htimers⟩ := load_frame src s
    exact of_same htimers
  · exact of_same (step_timers hstep)
  · have hzero {b : Byte} (hb : b = 0) : decrementByte b = 0 := by rw [hb, decrementByte_zero]
    cases k with
    | delay => exact ⟨hzero hs.1, hs.2⟩
    | sound => exact ⟨hs.1, hzero hs.2⟩

/-- Settles O52: timers at 0 are kept by every host operation and stand at 0 at construction; induction over the host's moves. -/
theorem timersStayZero : Obligations.TimersStayZero := by
  unfold Obligations.TimersStayZero
  refine ⟨fun op s t r h hd hk => hostOp_keeps_timers_zero h ⟨hd, hk⟩, fun s hs => ?_⟩
  induction hs with
  | constructed => exact ⟨rfl, rfl⟩
  | moved _ h ih => exact hostOp_keeps_timers_zero h ih

/-! ## The other host operations -/

/-- A decrement leaves everything but the timers. -/
theorem State.decrementTimer_frame (s : State) (k : Timer) :
    sameRegisters s (s.decrementTimer k) ∧ (s.decrementTimer k).index = s.index ∧ (s.decrementTimer k).pc = s.pc ∧
    (s.decrementTimer k).stack = s.stack ∧ samePixels s (s.decrementTimer k) ∧ sameMemory s (s.decrementTimer k) ∧
    (s.decrementTimer k).mode = s.mode := by
  cases k <;> exact ⟨fun _ => rfl, rfl, rfl, rfl, fun _ _ => rfl, fun _ _ => rfl, rfl⟩

/-- Settles O53: the reads answer the state they are given, and a load and a decrement have their frames. -/
theorem hostHasNoOtherMove : Obligations.HostHasNoOtherMove := by
  unfold Obligations.HostHasNoOtherMove
  intro op s t r hcycle hconstruct h
  cases op with
  | cycle => exact absurd rfl hcycle
  | construct => exact absurd rfl hconstruct
  | load src =>
    cases h
    obtain ⟨hpc, hindex, hregs, hstack, hpixels, htimers⟩ := load_frame src s
    exact ⟨hregs, hindex, hpc, hstack, hpixels, fun hno => absurd rfl (hno src), fun _ => htimers⟩
  | decrementTimer k =>
    cases h
    obtain ⟨hregs, hindex, hpc, hstack, hpixels, hmem, hmode⟩ := s.decrementTimer_frame k
    exact ⟨hregs, hindex, hpc, hstack, hpixels, fun _ => ⟨hmem, hmode⟩, fun hno => absurd rfl (hno k)⟩
  | readFrameBuffer | readTimer | readMode =>
    cases h
    exact ⟨fun _ => rfl, rfl, rfl, rfl, fun _ _ => rfl, fun _ => ⟨fun _ _ => rfl, rfl⟩, fun _ => ⟨rfl, rfl⟩⟩

/-- Settles O54: the three reads answer beside the state they are given, and the grid is built from the accessor. -/
theorem hostReadsChangeNothing : Obligations.HostReadsChangeNothing := by
  unfold Obligations.HostReadsChangeNothing
  refine fun s => ⟨⟨s.pixelGrid, rfl, fun x y => ?_⟩, fun _ => rfl, rfl⟩
  simp only [State.pixelGrid, Vector.getElem_ofFn]

end Sys2Proof.Machine
end
